-- ==== Sys2Proof/Word.lean ====
section
/-! DEFINITION. The word types of the machine (00_scope.md R5, R6, R7). Every value is unsigned. -/

namespace Sys2Proof

/-- A byte of Memory, a general register, an immediate `kk` (R5: `V_WIDTH` = 8). -/
abbrev Byte := BitVec 8

/-- An instruction word, the index register, the program counter, a Call Stack entry (R5: 16 bits). -/
abbrev Word := BitVec 16

/-- A 12-bit address operand `nnn` (R71). -/
abbrev Addr12 := BitVec 12

/-- A 4-bit field of an instruction word: an opcode family, a sprite height (R71). -/
abbrev Nibble := BitVec 4

/-- The index of a general register, 0x0 to 0xF (R22). -/
abbrev RegIdx := Fin 16

end Sys2Proof
end

