-- ==== Sys2Proof/Syntax.lean ====
section
/-! DEFINITION. The twelve instructions (00_scope.md R2, 30_encoding.md R72, R80), one constructor per row of spec/opcode_table.json.
Operands have exactly the widths of R71, so an operand out of its range cannot be written; numbers as a programmer writes them, which
can be out of range, are WellFormed.lean's `Source`. The unknown opcode is no instruction: see Decode.lean. -/

namespace Sys2Proof

inductive Instr where
  /-- `CLS`, `00E0`: clear screen (43_display.md R160). -/
  | cls
  /-- `RET`, `00EE`: return from subroutine (41_control_flow.md R120). -/
  | ret
  /-- `JP nnn`, `1nnn`: jump (R121). -/
  | jp (nnn : Addr12)
  /-- `CALL nnn`, `2nnn`: call subroutine (R122). -/
  | call (nnn : Addr12)
  /-- `SE Vx, kk`, `3xkk`: skip if equal to the immediate (R123). -/
  | se (x : RegIdx) (kk : Byte)
  /-- `SNE Vx, kk`, `4xkk`: skip if not equal to the immediate (R124). -/
  | sne (x : RegIdx) (kk : Byte)
  /-- `LD Vx, kk`, `6xkk`: load immediate (42_register_ops.md R140). -/
  | ld (x : RegIdx) (kk : Byte)
  /-- `ADD Vx, kk`, `7xkk`: add immediate (R141). -/
  | add (x : RegIdx) (kk : Byte)
  /-- `SNE_R Vx, Vy`, `9xy0`: skip if the registers are unequal (R125). -/
  | sneR (x y : RegIdx)
  /-- `LD_I nnn`, `Annn`: load index (R142). -/
  | ldI (nnn : Addr12)
  /-- `RND Vx, kk`, `Cxkk`: random AND mask (R143). -/
  | rnd (x : RegIdx) (kk : Byte)
  /-- `DRW Vx, Vy, n`, `Dxyn`: draw sprite (43_display.md R161). -/
  | drw (x y : RegIdx) (n : Nibble)
  deriving DecidableEq, Repr

end Sys2Proof
end

