-- ==== Sys2Proof/WellFormed.lean ====
section
/-! DEFINITION. Which instructions a programmer may write (30_encoding.md R79): operands are numbers, and "an operand out of its range is
an assembly error, never truncated". `Source` is an instruction with plain numbers, `Source.check` the check of each of them. -/

namespace Sys2Proof

/-- An instruction as written: register numbers, bytes, addresses and heights as plain numbers (R79). -/
inductive Source where
  | cls
  | ret
  | jp (addr : Nat)
  | call (addr : Nat)
  | se (x byte : Nat)
  | sne (x byte : Nat)
  | ld (x byte : Nat)
  | add (x byte : Nat)
  | sneR (x y : Nat)
  | ldI (addr : Nat)
  | rnd (x byte : Nat)
  | drw (x y nibble : Nat)
  deriving DecidableEq, Repr

/-- Which operand is out of its range (R79), with the number written. -/
inductive OperandError where
  /-- No register `V0` to `VF`. -/
  | register (x : Nat)
  /-- Above 0xFF. -/
  | byte (b : Nat)
  /-- Above 0xFFF. -/
  | address (a : Nat)
  /-- Above 0xF. -/
  | nibble (n : Nat)
  deriving DecidableEq, Repr

def checkReg (x : Nat) : Except OperandError RegIdx :=
  if h : x < 16 then .ok ⟨x, h⟩ else .error (.register x)

def checkByte (b : Nat) : Except OperandError Byte :=
  if b < 256 then .ok (BitVec.ofNat 8 b) else .error (.byte b)

def checkAddr (a : Nat) : Except OperandError Addr12 :=
  if a < 4096 then .ok (BitVec.ofNat 12 a) else .error (.address a)

def checkNibble (n : Nat) : Except OperandError Nibble :=
  if n < 16 then .ok (BitVec.ofNat 4 n) else .error (.nibble n)

/-- The instruction that a register and a byte make (format `XK` of 30_encoding.md R72), both checked. -/
def checkXK (f : RegIdx → Byte → Instr) (x b : Nat) : Except OperandError Instr :=
  match checkReg x with
  | .error e => .error e
  | .ok x =>
    match checkByte b with
    | .error e => .error e
    | .ok b => .ok (f x b)

/-- The instruction that two registers make, both checked. -/
def checkXY (f : RegIdx → RegIdx → Except OperandError Instr) (x y : Nat) : Except OperandError Instr :=
  match checkReg x with
  | .error e => .error e
  | .ok x =>
    match checkReg y with
    | .error e => .error e
    | .ok y => f x y

/-- The instruction that an address makes (format `A` of R72), checked. -/
def checkA (f : Addr12 → Instr) (a : Nat) : Except OperandError Instr :=
  match checkAddr a with
  | .error e => .error e
  | .ok a => .ok (f a)

/-- The instruction as written, with every operand in its range, or the first operand that is not (R79). -/
def Source.check : Source → Except OperandError Instr
  | .cls => .ok .cls
  | .ret => .ok .ret
  | .jp a => checkA .jp a
  | .call a => checkA .call a
  | .se x b => checkXK .se x b
  | .sne x b => checkXK .sne x b
  | .ld x b => checkXK .ld x b
  | .add x b => checkXK .add x b
  | .sneR x y => checkXY (fun x y => .ok (.sneR x y)) x y
  | .ldI a => checkA .ldI a
  | .rnd x b => checkXK .rnd x b
  | .drw x y n => checkXY (fun x y => match checkNibble n with
      | .error e => .error e
      | .ok n => .ok (.drw x y n)) x y

/-- Every operand is in its range. -/
def Source.wellFormed (src : Source) : Bool :=
  match src.check with
  | .ok _ => true
  | .error _ => false

/-- An instruction as a programmer writes it. -/
def Instr.source : Instr → Source
  | .cls => .cls
  | .ret => .ret
  | .jp a => .jp a.toNat
  | .call a => .call a.toNat
  | .se x b => .se x.val b.toNat
  | .sne x b => .sne x.val b.toNat
  | .ld x b => .ld x.val b.toNat
  | .add x b => .add x.val b.toNat
  | .sneR x y => .sneR x.val y.val
  | .ldI a => .ldI a.toNat
  | .rnd x b => .rnd x.val b.toNat
  | .drw x y n => .drw x.val y.val n.toNat

/-- An instruction is well-formed when it can be written within the ranges of R79. Operand types already have those ranges, so every
`Instr` is (Laws/WellFormed.lean). -/
def Instr.wellFormed (i : Instr) : Bool := i.source.wellFormed

end Sys2Proof
end

