-- ==== Sys2Proof/Decode.lean ====
section
/-! DEFINITION. The shared field extraction (30_encoding.md R71), the decoder (R74), the encoder (R80), the byte order of instruction words
(20_memory.md R54) and the opcode table as data (R81). -/

namespace Sys2Proof

/-! ## Byte order (20_memory.md R54) -/

/-- Big-endian: the byte at the lower address is bits 15..8. -/
def wordOfBytes (hi lo : Byte) : Word := hi ++ lo

def highByte (w : Word) : Byte := w.extractLsb' 8 8

def lowByte (w : Word) : Byte := w.extractLsb' 0 8

/-! ## Fields (R71) -/

/-- The opcode family, `w[15:12]`. -/
def opField (w : Word) : Nibble := w.extractLsb' 12 4

/-- The first register index, `w[11:8]`. -/
def xField (w : Word) : RegIdx := (w.extractLsb' 8 4).toFin

/-- The second register index, `w[7:4]`. -/
def yField (w : Word) : RegIdx := (w.extractLsb' 4 4).toFin

/-- The sprite height, `w[3:0]`. -/
def nField (w : Word) : Nibble := w.extractLsb' 0 4

/-- The immediate byte, `w[7:0]`. -/
def kkField (w : Word) : Byte := w.extractLsb' 0 8

/-- The address, `w[11:0]`. -/
def nnnField (w : Word) : Addr12 := w.extractLsb' 0 12

/-! ## The decoder -/

/-- What a word decodes to: one of the twelve instructions or `UNKNOWN(w)` (R74). -/
inductive Decoded where
  | instr (i : Instr)
  | unknown (w : Word)
  deriving DecidableEq, Repr

/-- The family ranges of R74. -/
def decodeFamily (w : Word) : Decoded :=
  match (opField w).toNat with
  | 0x1 => .instr (.jp (nnnField w))
  | 0x2 => .instr (.call (nnnField w))
  | 0x3 => .instr (.se (xField w) (kkField w))
  | 0x4 => .instr (.sne (xField w) (kkField w))
  | 0x6 => .instr (.ld (xField w) (kkField w))
  | 0x7 => .instr (.add (xField w) (kkField w))
  | 0x9 => if nField w = 0 then .instr (.sneR (xField w) (yField w)) else .unknown w
  | 0xA => .instr (.ldI (nnnField w))
  | 0xC => .instr (.rnd (xField w) (kkField w))
  | 0xD => .instr (.drw (xField w) (yField w) (nField w))
  | _ => .unknown w

/-- R74: the two whole-word literals first, then the family; total over all 65536 words (R78). -/
def decode (w : Word) : Decoded :=
  if w = 0x00E0 then .instr .cls
  else if w = 0x00EE then .instr .ret
  else decodeFamily w

/-- Why a run of bytes gives no instruction. -/
inductive DecodeReject where
  /-- Fewer than the two bytes of a word (R70). -/
  | truncated
  /-- The word is an unknown opcode (R76). -/
  | unknownOpcode (w : Word)
  deriving DecidableEq, Repr

/-- The instruction at the head of any run of bytes, with the bytes after it, or the named reason why there is none. -/
def decodeBytes : List Byte → Except DecodeReject (Instr × List Byte)
  | hi :: lo :: rest =>
    match decode (wordOfBytes hi lo) with
    | .instr i => .ok (i, rest)
    | .unknown w => .error (.unknownOpcode w)
  | _ => .error .truncated

/-! ## The encoder (R80) -/

/-- Format `A` (R72): family, address. -/
def formatA (op : Nibble) (nnn : Addr12) : Word := op ++ nnn

/-- Format `XK` (R72): family, register, byte. -/
def formatXK (op : Nibble) (x : RegIdx) (kk : Byte) : Word := op ++ BitVec.ofFin (w := 4) x ++ kk

/-- Format `XYN` (R72): family, register, register, nibble. -/
def formatXYN (op : Nibble) (x y : RegIdx) (n : Nibble) : Word :=
  op ++ BitVec.ofFin (w := 4) x ++ BitVec.ofFin (w := 4) y ++ n

/-- The word of an instruction (R80). -/
def encode : Instr → Word
  | .cls => 0x00E0
  | .ret => 0x00EE
  | .jp nnn => formatA 0x1 nnn
  | .call nnn => formatA 0x2 nnn
  | .se x kk => formatXK 0x3 x kk
  | .sne x kk => formatXK 0x4 x kk
  | .ld x kk => formatXK 0x6 x kk
  | .add x kk => formatXK 0x7 x kk
  | .sneR x y => formatXYN 0x9 x y 0
  | .ldI nnn => formatA 0xA nnn
  | .rnd x kk => formatXK 0xC x kk
  | .drw x y n => formatXYN 0xD x y n

/-- The two bytes of a word, in the order Memory holds them. -/
def bytesOfWord (w : Word) : List Byte := [highByte w, lowByte w]

def encodeBytes (i : Instr) : List Byte := bytesOfWord (encode i)

/-! ## The opcode table (R81) -/

/-- The row names of spec/opcode_table.json. -/
def Instr.mnemonic : Instr → String
  | .cls => "CLS"
  | .ret => "RET"
  | .jp _ => "JP"
  | .call _ => "CALL"
  | .se _ _ => "SE"
  | .sne _ _ => "SNE"
  | .ld _ _ => "LD"
  | .add _ _ => "ADD"
  | .sneR _ _ => "SNE_R"
  | .ldI _ => "LD_I"
  | .rnd _ _ => "RND"
  | .drw _ _ _ => "DRW"

/-- A row: a word `w` selects it when `w & mask == bits` (R81; the table's column `match`). -/
structure OpcodeRow where
  mnemonic : String
  bits : Word
  mask : Word
  deriving DecidableEq, Repr

def opcodeTable : List OpcodeRow :=
  [⟨"CLS", 0x00E0, 0xFFFF⟩, ⟨"RET", 0x00EE, 0xFFFF⟩, ⟨"JP", 0x1000, 0xF000⟩, ⟨"CALL", 0x2000, 0xF000⟩,
   ⟨"SE", 0x3000, 0xF000⟩, ⟨"SNE", 0x4000, 0xF000⟩, ⟨"LD", 0x6000, 0xF000⟩, ⟨"ADD", 0x7000, 0xF000⟩,
   ⟨"SNE_R", 0x9000, 0xF00F⟩, ⟨"LD_I", 0xA000, 0xF000⟩, ⟨"RND", 0xC000, 0xF000⟩, ⟨"DRW", 0xD000, 0xF000⟩]

def OpcodeRow.selects (r : OpcodeRow) (w : Word) : Bool := w &&& r.mask == r.bits

/-- The names of the rows a word selects (R81: one row for a known word, none for an unknown one). -/
def rowsSelected (w : Word) : List String := (opcodeTable.filter (·.selects w)).map (·.mnemonic)

/-! ## The host's numbering of a table row's bits -/

/-- The instruction word whose bits are `w`, bit 0 the least significant bit of the (one) word; bits above `nbits` are 0. DEDUCED,
assumption log 9. -/
def tableWord (nbits w : Nat) : Word := BitVec.ofNat 16 (w % 2 ^ nbits)

/-- What the decoder reads from that word laid out in Memory's byte order. -/
def decodeTableWord (nbits w : Nat) : Option Instr :=
  match decodeBytes (bytesOfWord (tableWord nbits w)) with
  | .ok (i, _) => some i
  | .error _ => none

end Sys2Proof
end

