-- ==== Sys2Proof/Config.lean ====
section
/-! DEFINITION. What the source fixes (00_scope.md R5), the shape of the parameters it leaves open (R5, 93_implementation_defined.md
part 1), and the free random byte (40_step_engine.md R107). The parameters' VALUES stand in Machine/Parameters.lean. -/

namespace Sys2Proof

/-- `MEM_SIZE` (R5, 20_memory.md R50): the valid addresses are 0x000 to 0xFFF. -/
abbrev Config.memSize : Nat := 4096

/-- What a byte of Memory holds at construction (10_state.md R34). -/
abbrev Config.memReset : Byte := 0x00

/-- `PC_RESET` (R5, 70_reset_and_hazards.md R231): the program origin. -/
abbrev Config.pcReset : Word := 0x0200

/-- `SPRITE_W` (R5): a sprite row has 8 pixels. -/
abbrev Config.spriteWidth : Nat := 8

/-- `DRAW_EDGE` (43_display.md R163): what `DRW` does with a pixel outside 64x32. -/
inductive DrawEdge where
  | wrap
  | clip
  deriving DecidableEq, Repr

/-- `COLLISION_STORAGE` (10_state.md R23): where `DRW` stores the collision result. -/
inductive CollisionStorage where
  | vf
  | separate
  deriving DecidableEq, Repr

/-- The parameters whose value the source leaves open (R5, decisions D2 to D5). A rule that depends on one is written for every value. -/
structure Params where
  /-- `DRAW_EDGE` (D4). -/
  drawEdge : DrawEdge
  /-- `SNE_R_EQ_EXTRA` (D3): what `SNE_R` adds to `pc` when the registers are equal. -/
  sneREqExtra : Word
  /-- `STACK_CAPACITY` (D5): `none` is the unbounded stack. -/
  stackCapacity : Option Nat
  /-- `COLLISION_STORAGE` (D2). -/
  collisionStorage : CollisionStorage
  deriving DecidableEq, Repr

/-- The random byte that step number `k` of a run receives (40_step_engine.md R107, D11): ANY byte, under no law. It has no body, so
no proof can use a value of it. DESIGN CHOICE, assumption log 2. -/
opaque Config.randByte : Nat → Byte

end Sys2Proof
end

