-- ==== Sys2Proof/Machine/Parameters.lean ====
section
/-! DEFINITION. The values of the parameters the source leaves open (00_scope.md R5), as spec/92_eei_decisions.md decides them, and the one
advance of `DRW` that spec/90_conflicts.md C2 settles. Assumption log 5. -/

namespace Sys2Proof.Machine

/-- The spec's values: D4, D3, D5, D2. -/
def params : Params where
  drawEdge := .wrap
  sneREqExtra := 0
  stackCapacity := some 16
  collisionStorage := .vf

/-- `DRAW_EXTRA_ADVANCE` (43_display.md R166, conflict C2): what `DRW` adds to `pc` beyond the fetch advance. -/
def drawExtraAdvance : Word := 2

end Sys2Proof.Machine
end

