-- ==== Sys2Proof/Machine/State.lean ====
section
/-! DEFINITION. The state of one instance (10_state.md R20), the conditions of a step (60_exceptions.md R201, R202) and the state after
construction (10_state.md R34). -/

namespace Sys2Proof.Machine

/-- In which part of a step an address failed (R202). -/
inductive Phase where
  | fetch
  | draw
  deriving DecidableEq, Repr

/-- The non-fatal events of a step (R201), with their records (R202): the step goes on. `fetchAddr` is the step's fetch address `A`. -/
inductive Event where
  /-- 0x01: the word matches no known instruction family. -/
  | unknownOpcode (w : Word) (fetchAddr : Word)
  /-- 0x02: `RET` with no pushed address. -/
  | emptyStackReturn (fetchAddr : Word)
  deriving DecidableEq, Repr

/-- The fatal conditions of a step (R201), with their records (R202). The step then has no effect at all: the state after it IS the state
before it (40_step_engine.md R106), which is why an outcome `fault` carries no state. -/
inductive Fault where
  /-- 0x81. Raised by the fetch (40_step_engine.md R101) and by `DRW` (43_display.md R162) at the first address `addr`, an unbounded
  integer, that is 4096 or more. Safe: the spec's own condition. -/
  | addressingViolation (addr : Nat) (fetchAddr : Word) (phase : Phase)
  /-- 0x82. Raised by `CALL` (41_control_flow.md R122) when the Call Stack is full. Safe: the spec's own condition. -/
  | stackOverflow (fetchAddr : Word) (target : Addr12)
  deriving DecidableEq, Repr

/-- Why the model itself answers nothing. No instruction of this model is refused. -/
inductive Refusal where
  /-- Raised by an arm of `exec` whose instruction has no meaning yet; no arm is so. Safe: the model stops. -/
  | notModelled (mnemonic : String)
  deriving DecidableEq, Repr

/-- Memory (20_memory.md R50): cells in strictly rising address order, none holding `Config.memReset`, which an unlisted address reads as
(Ops.lean: `Memory.byteAt`, `Memory.wf`). -/
abbrev Memory := List Host.Cell

/-- The Display Buffer (10_state.md R29): 32 rows, row 0 at the top, of 64 columns, column 0 at the left; `true` is set. -/
abbrev Display := Vector (Vector Bool 64) 32

/-- The state tuple of R20, then the field of the alternative collision storage, then the model's own input and output fields. -/
structure State where
  /-- Memory (20_memory.md R50). -/
  mem : Memory
  /-- The general registers `V[0x0]` to `V[0xF]` (R22); `V[0xF]` is the collision flag register (R23). -/
  v : Vector Byte 16
  /-- The index register `I` (R24). -/
  i : Word
  /-- The program counter (R25). -/
  pc : Word
  /-- The Call Stack, bottom to top: the last entry is the top (R27, R35). -/
  stack : List Word
  /-- The Display Buffer (R29). -/
  disp : Display
  /-- The field `C`, written only under `COLLISION_STORAGE = separate` (R23, R34; assumption log 6). -/
  collisionC : Bool
  /-- Output: the events of the last step, its `Ok(events)` (R21, 40_step_engine.md R105). The model's own field, assumption log 1. -/
  events : List Event
  /-- Input: the random byte of the step being run (40_step_engine.md R107). The model's own field, assumption log 2. -/
  rand : Byte
  /-- How many steps have run: the index of the next free random byte. The model's own field, assumption log 2. -/
  tick : Nat
  deriving DecidableEq, Repr

/-- The outcome of an instruction or a step: a next state, a fatal condition, or a refusal. -/
abbrev Result := Host.Outcome State Fault Refusal

/-- The state the `CONSTRUCT` port makes (10_state.md R34, 70_reset_and_hazards.md R230). -/
def State.reset : State where
  mem := []
  v := Vector.replicate 16 0x00
  i := 0x0000
  pc := Config.pcReset
  stack := []
  disp := Vector.replicate 32 (Vector.replicate 64 false)
  collisionC := false
  events := []
  rand := 0x00
  tick := 0

end Sys2Proof.Machine
end

