-- ==== Sys2Proof/Machine/Ops.lean ====
section
/-! DEFINITION. The operations every instruction is written from: Memory (20_memory.md), the fetch (40_step_engine.md R101), the program
counter (10_state.md R25, R26), the Call Stack (R27), and the two ways a condition is reported (60_exceptions.md R200 to R204). -/

namespace Sys2Proof.Machine

/-! ## Memory -/

/-- `valid(a)` (R52), on an unbounded integer. -/
abbrev Valid (a : Nat) : Prop := a < Config.memSize

/-- `mem[a]`: the byte listed for `a`, else the reset contents. -/
def Memory.byteAt : Memory → Nat → Byte
  | [], _ => Config.memReset
  | (k, b) :: m, a => if k = a then b else Memory.byteAt m a

/-- A cell in front of a memory, unless it holds what an unlisted address reads as. -/
def Memory.cons (a : Nat) (b : Byte) (m : Memory) : Memory :=
  if b = Config.memReset then m else (a, b) :: m

/-- `mem[a] <- b`, in canonical form. -/
def Memory.store : Memory → Nat → Byte → Memory
  | [], a, b => Memory.cons a b []
  | (k, c) :: m, a, b =>
    if a < k then Memory.cons a b ((k, c) :: m)
    else if a = k then Memory.cons a b m
    else (k, c) :: Memory.store m a b

/-- The canonical form of the cells from address `lo` up: strictly rising, valid, none equal to the reset contents. -/
def Memory.wfFrom : Nat → Memory → Bool
  | _, [] => true
  | lo, (a, b) :: m => decide (lo ≤ a) && decide (Valid a) && decide (b ≠ Config.memReset) && Memory.wfFrom (a + 1) m

/-- The canonical form of Memory (assumption log 7). -/
def Memory.wf (m : Memory) : Bool := Memory.wfFrom 0 m

/-- `MemRead(addr, 1)` (R53) by the step whose fetch address is `fetchAddr`. -/
def State.memRead (s : State) (addr : Nat) (fetchAddr : Word) (phase : Phase) : Except Fault Byte :=
  if Valid addr then .ok (s.mem.byteAt addr) else .error (.addressingViolation addr fetchAddr phase)

/-- `MemWrite(addr, 1, b)` (R63): `none` where the address is not valid, and then nothing changes. -/
def State.memWrite (s : State) (addr : Nat) (b : Byte) : Option State :=
  if Valid addr then some { s with mem := s.mem.store addr b } else none

/-! ## The fetch and the program counter -/

/-- The word at `pc` and `pc + 1`, or the fetch's addressing violation at the first of the two that is not valid (R101). -/
def State.fetchWord (s : State) : Except Fault Word :=
  match s.memRead s.pc.toNat s.pc .fetch with
  | .error f => .error f
  | .ok hi =>
    match s.memRead (s.pc.toNat + 1) s.pc .fetch with
    | .error f => .error f
    | .ok lo => .ok (wordOfBytes hi lo)

/-- `pc <- (pc + k) mod 2^16` (R26). -/
def State.advancePc (s : State) (k : Word) : State := { s with pc := s.pc + k }

/-- `pc <- target`, with no check of the target (41_control_flow.md R126). -/
def State.setPc (s : State) (target : Word) : State := { s with pc := target }

/-- The state an instruction executes in (R101, R102): the fetch advance is made, no event is reported yet, the step's random byte is
there (R107). -/
def State.beginStep (s : State) (rand : Byte) : State :=
  { s with pc := s.pc + 2, events := [], rand := rand, tick := s.tick + 1 }

/-- `A`, the fetch address of the step, from inside an instruction that has not yet moved `pc` beyond the fetch advance (R102). DEDUCED,
assumption log 3. -/
def State.fetchAddr (s : State) : Word := s.pc - 2

/-- The skip of the compare instructions (41_control_flow.md R123): one more word is passed over when `c` holds. -/
def State.skipIf (s : State) (c : Bool) : State := if c then s.advancePc 2 else s

/-! ## The Call Stack (10_state.md R27) -/

/-- `Push(w)`. -/
def State.push (s : State) (w : Word) : State := { s with stack := s.stack ++ [w] }

/-- `Pop()`: the top entry and the state without it; `none` at depth 0. -/
def State.pop (s : State) : Option (Word × State) :=
  match s.stack.getLast? with
  | none => none
  | some top => some (top, { s with stack := s.stack.dropLast })

/-- The depth has reached `STACK_CAPACITY`; never so for the unbounded stack (10_state.md R28, 41_control_flow.md R122). -/
def stackFull (p : Params) (s : State) : Bool :=
  match p.stackCapacity with
  | none => false
  | some capacity => s.stack.length == capacity

/-! ## Conditions

There is no trap mechanism (60_exceptions.md R200): no register saves the pc or a status, there is no mode and no handler, and so nothing to
return from (R204, R205). A fatal condition ends the step; an event is added to its result. -/

/-- `raise <Condition>` (00_scope.md R8): the step ends, and its effects are discarded (R204). -/
def raise (f : Fault) : Result := .fault f

/-- `report <Event>` (R8): the event is added to the step's result and the step goes on. -/
def State.report (s : State) (e : Event) : State := { s with events := s.events ++ [e] }

/-- The code of an event (60_exceptions.md R201). -/
def Event.code : Event → Byte
  | .unknownOpcode _ _ => 0x01
  | .emptyStackReturn _ => 0x02

/-- The code of a fatal condition (R201). -/
def Fault.code : Fault → Byte
  | .addressingViolation _ _ _ => 0x81
  | .stackOverflow _ _ => 0x82

/-! ## Comparing states -/

/-- The two states agree on the spec's whole tuple (10_state.md R20) and on `C`; they may differ in the model's own input and output
fields. -/
abbrev State.SameArch (s t : State) : Prop :=
  t.mem = s.mem ∧ t.v = s.v ∧ t.i = s.i ∧ t.pc = s.pc ∧ t.stack = s.stack ∧ t.disp = s.disp ∧ t.collisionC = s.collisionC

/-- The next state of an outcome that has one. -/
def nextState? : Result → Option State
  | .next s => some s
  | .fault _ => none
  | .refused _ => none

/-- The fatal condition of an outcome that is one. -/
def fault? : Result → Option Fault
  | .next _ => none
  | .fault f => some f
  | .refused _ => none

end Sys2Proof.Machine
end

