-- ==== Sys2Proof/Machine/Operands.lean ====
section
/-! DEFINITION. The operand forms (30_encoding.md R73): a register, a byte as it is, a 12-bit address widened with zeros, and the sprite
bytes at the index register (43_display.md R162). -/

namespace Sys2Proof.Machine

/-- `V[x]` (10_state.md R22); no register is hardwired. -/
def State.getV (s : State) (x : RegIdx) : Byte := s.v.get x

/-- `V[x] <- b`. -/
def State.setV (s : State) (x : RegIdx) (b : Byte) : State := { s with v := s.v.set x b }

/-- `I <- w` (R24). -/
def State.setI (s : State) (w : Word) : State := { s with i := w }

/-- `zext_16(nnn)` (30_encoding.md R73). -/
def zext16 (nnn : Addr12) : Word := nnn.setWidth 16

/-- The `n` bytes at `addr`, `addr + 1`, …, in that order; the first address that is not valid ends the reading (43_display.md R162). -/
def State.readRows (s : State) (fetchAddr : Word) : Nat → Nat → Except Fault (List Byte)
  | _, 0 => .ok []
  | addr, n + 1 =>
    match s.memRead addr fetchAddr .draw with
    | .error f => .error f
    | .ok row =>
      match State.readRows s fetchAddr (addr + 1) n with
      | .error f => .error f
      | .ok rows => .ok (row :: rows)

end Sys2Proof.Machine
end

