-- ==== Sys2Proof/Machine/Flags.lean ====
section
/-! DEFINITION. The one flag of the block, the collision flag (10_state.md R23, R30; 43_display.md R164, R165). -/

namespace Sys2Proof.Machine

/-- The pixel goes from set to unset: the old pixel is set and the incoming bit is 1 (R164). -/
def collides (old bit : Bool) : Bool := old && bit

/-- The flag as the byte of `V[0xF]` (R165). -/
def collisionByte (collision : Bool) : Byte := if collision then 0x01 else 0x00

/-- The write of the collision flag at the end of a draw (R165): all 8 bits of `V[0xF]`, or the field `C` alone. -/
def State.setCollision (p : Params) (s : State) (collision : Bool) : State :=
  match p.collisionStorage with
  | .vf => s.setV 0xF (collisionByte collision)
  | .separate => { s with collisionC := collision }

end Sys2Proof.Machine
end

