-- ==== Sys2Proof/Machine/ControlFlow.lean ====
section
/-! DEFINITION. `RET`, `JP`, `CALL`, `SE`, `SNE`, `SNE_R` (41_control_flow.md). Every meaning runs after the fetch advance: on entry
`pc = A + 2`. -/

namespace Sys2Proof.Machine

/-- `RET` (R120). -/
def execRet (s : State) : Result :=
  match s.pop with
  | none => .next (s.report (.emptyStackReturn s.fetchAddr))
  | some (top, s') => .next (s'.setPc top)

/-- `JP nnn` (R121). -/
def execJp (nnn : Addr12) (s : State) : Result := .next (s.setPc (zext16 nnn))

/-- `CALL nnn` (R122), for any `STACK_CAPACITY`. -/
def callWith (p : Params) (nnn : Addr12) (s : State) : Result :=
  if stackFull p s then raise (.stackOverflow s.fetchAddr nnn)
  else .next ((s.push s.pc).setPc (zext16 nnn))

def execCall (nnn : Addr12) (s : State) : Result := callWith params nnn s

/-- `SE Vx, kk` (R123). -/
def execSe (x : RegIdx) (kk : Byte) (s : State) : Result := .next (s.skipIf (s.getV x == kk))

/-- `SNE Vx, kk` (R124). -/
def execSne (x : RegIdx) (kk : Byte) (s : State) : Result := .next (s.skipIf (s.getV x != kk))

/-- `SNE_R Vx, Vy` (R125), for any `SNE_R_EQ_EXTRA`. -/
def sneRWith (p : Params) (x y : RegIdx) (s : State) : Result :=
  .next (s.advancePc (if s.getV x ≠ s.getV y then 2 else p.sneREqExtra))

def execSneR (x y : RegIdx) (s : State) : Result := sneRWith params x y s

end Sys2Proof.Machine
end

