-- ==== Sys2Proof/Machine/Drawing.lean ====
section
/-! DEFINITION. `CLS` and `DRW`: XOR compositing and the collision detector (43_display.md). -/

namespace Sys2Proof.Machine

/-! ## Pixels (10_state.md R29) -/

/-- `Pix(x, y)`: column `x`, row `y`. -/
def Display.pix (d : Display) (x : Fin 64) (y : Fin 32) : Bool := (d.get y).get x

/-- `Pix(x, y) <- b`. -/
def Display.setPix (d : Display) (x : Fin 64) (y : Fin 32) (b : Bool) : Display :=
  d.set y ((d.get y).set x b)

/-- Every pixel unset. -/
def Display.clear : Display := Vector.replicate 32 (Vector.replicate 64 false)

/-! ## Compositing -/

/-- The pixel a bit at `(cx, cy)` falls on; `none` where it is dropped (R163). -/
def target (edge : DrawEdge) (cx cy : Nat) : Option (Fin 64 × Fin 32) :=
  match edge with
  | .wrap => some (⟨cx % 64, Nat.mod_lt cx (by decide)⟩, ⟨cy % 32, Nat.mod_lt cy (by decide)⟩)
  | .clip => if h : cx < 64 ∧ cy < 32 then some (⟨cx, h.1⟩, ⟨cy, h.2⟩) else none

/-- Bit `b` of a sprite row, `b = 0` the most significant (R163). -/
def spriteBit (row : Byte) (b : Nat) : Bool := row.getLsbD (7 - b)

/-- A draw in progress: the display and whether a collision has occurred. -/
abbrev Canvas := Display × Bool

/-- One sprite bit onto the display (R161, R164). -/
def plot (edge : DrawEdge) (cx cy : Nat) (bit : Bool) (c : Canvas) : Canvas :=
  match target edge cx cy with
  | none => c
  | some (px, py) =>
    (Display.setPix c.1 px py (Display.pix c.1 px py ^^ bit), c.2 || collides (Display.pix c.1 px py) bit)

/-- One sprite row: the bits `b` to 7 at columns `vx + b` and up. -/
def drawRow (edge : DrawEdge) (vx cy : Nat) (row : Byte) (c : Canvas) : Canvas :=
  (List.range Config.spriteWidth).foldl (fun c b => plot edge (vx + b) cy (spriteBit row b) c) c

/-- The sprite rows, the first at row `cy` of the display (R161). -/
def drawRows (edge : DrawEdge) (vx : Nat) : Nat → List Byte → Canvas → Canvas
  | _, [], c => c
  | cy, row :: rows, c => drawRows edge vx (cy + 1) rows (drawRow edge vx cy row c)

/-! ## The instructions -/

/-- `CLS` (R160). -/
def execCls (s : State) : Result := .next { s with disp := Display.clear }

/-- `DRW Vx, Vy, n` (R161), for any `DRAW_EDGE` and `COLLISION_STORAGE`: every sprite byte is read before any pixel is written (R162), the
coordinates are read before the flag is written, the flag is written after all pixels (R165), and `pc` moves on by
`DRAW_EXTRA_ADVANCE` (R166). -/
def drwWith (p : Params) (x y : RegIdx) (n : Nibble) (s : State) : Result :=
  match s.readRows s.fetchAddr s.i.toNat n.toNat with
  | .error f => raise f
  | .ok rows =>
    let canvas := drawRows p.drawEdge (s.getV x).toNat (s.getV y).toNat rows (s.disp, false)
    .next ((State.setCollision p { s with disp := canvas.1 } canvas.2).advancePc drawExtraAdvance)

def execDrw (x y : RegIdx) (n : Nibble) (s : State) : Result := drwWith params x y n s

end Sys2Proof.Machine
end

