-- ==== Sys2Proof/Machine/RegisterOps.lean ====
section
/-! DEFINITION. `LD`, `ADD`, `LD_I`, `RND` (42_register_ops.md). None of them moves `pc` beyond the fetch advance. -/

namespace Sys2Proof.Machine

/-- `LD Vx, kk` (R140). -/
def execLd (x : RegIdx) (kk : Byte) (s : State) : Result := .next (s.setV x kk)

/-- `ADD Vx, kk` (R141): modulo 256, no carry. -/
def execAdd (x : RegIdx) (kk : Byte) (s : State) : Result := .next (s.setV x (s.getV x + kk))

/-- `LD_I nnn` (R142). -/
def execLdI (nnn : Addr12) (s : State) : Result := .next (s.setI (zext16 nnn))

/-- `RND Vx, kk` (R143), with the step's random byte (40_step_engine.md R107). -/
def execRnd (x : RegIdx) (kk : Byte) (s : State) : Result := .next (s.setV x (s.rand &&& kk))

end Sys2Proof.Machine
end

