-- ==== Sys2Proof/Machine/Engine.lean ====
section
/-! DEFINITION. One step of the engine with a given random byte: fetch, decode, execute (40_step_engine.md R100 to R108). -/

namespace Sys2Proof.Machine

/-- The unknown opcode (R104): reported, with no other effect than the fetch advance already made. -/
def execUnknown (w : Word) (s : State) : Result := .next (s.report (.unknownOpcode w s.fetchAddr))

/-- The operation a word stands for (R103). -/
def execDecoded (d : Decoded) (s : State) : Result :=
  match d with
  | .instr i => exec i s
  | .unknown w => execUnknown w s

/-- `STEP(rand)` (R108): a `fault` leaves the state as it was (R106), a `next` state holds the step's events in `events` (R105). -/
def stepWith (rand : Byte) (s : State) : Result :=
  match s.fetchWord with
  | .error f => raise f
  | .ok w => execDecoded (decode w) (s.beginStep rand)

/-- A word stored where the next fetch reads it, by two `LOAD`s (20_memory.md R54, R63); a byte whose address is not valid is not stored. -/
def State.storeAtPc (s : State) (w : Word) : State :=
  let s₁ := (s.memWrite s.pc.toNat (highByte w)).getD s
  (s₁.memWrite (s.pc.toNat + 1) (lowByte w)).getD s₁

end Sys2Proof.Machine
end

