-- ==== Sys2Proof/Machine/Step.lean ====
section
/-! DEFINITION. The step of the host's interface: `STEP(rand)` with the next free random byte (40_step_engine.md R107, assumption log 2). -/

namespace Sys2Proof.Machine

def step (s : State) : Host.Outcome State Fault Refusal := stepWith (Config.randByte s.tick) s

/-- The word that the opcode table's bits `w` make, loaded where the next step fetches it (assumption logs 8 and 9). -/
def State.withFetchWord (s : State) (nbits w : Nat) : State := s.storeAtPc (tableWord nbits w)

end Sys2Proof.Machine
end

