-- ==== Sys2Proof/Machine/Ports.lean ====
section
/-! DEFINITION. The transaction-level ports (10_state.md R35), each one atomic exchange between steps (R36), and several instances that share
nothing (R37). -/

namespace Sys2Proof.Machine

/-- A transaction of one instance (R35). -/
inductive Transaction where
  /-- Replaces the instance by a newly constructed one (70_reset_and_hazards.md R230). -/
  | construct
  | step (rand : Byte)
  | load (addr : Nat) (b : Byte)
  | readDisp
  /-- Reads every register, the stack and the byte of Memory at `addr` (20_memory.md R64; assumption log 10). -/
  | readState (addr : Nat)
  deriving DecidableEq, Repr

/-- What `READ_STATE` returns for a valid address (10_state.md R35, 20_memory.md R64). -/
structure StateView where
  v : Vector Byte 16
  i : Word
  pc : Word
  stack : List Word
  byte : Byte
  deriving DecidableEq, Repr

/-- What a transaction answers. -/
inductive Response where
  | constructed
  /-- `Ok(events)` (00_scope.md R10). -/
  | ok (events : List Event)
  /-- `Fault(condition)` (R10). -/
  | fault (f : Fault)
  /-- The model has no meaning for the instruction; never answered. -/
  | refused (r : Refusal)
  | loaded
  /-- `LOAD` outside 0x000 to 0xFFF (20_memory.md R63). -/
  | loadRejected
  | display (d : Display)
  | view (v : StateView)
  /-- `READ_STATE` outside 0x000 to 0xFFF: nothing is returned (20_memory.md R64). -/
  | readRejected
  deriving DecidableEq, Repr

/-- `STEP(rand)` as the caller sees it (40_step_engine.md R108): after a fatal condition the state is the state before (R106). -/
def stepPort (rand : Byte) (s : State) : State × Response :=
  match stepWith rand s with
  | .next s' => (s', .ok s'.events)
  | .fault f => (s, .fault f)
  | .refused r => (s, .refused r)

/-- `LOAD(addr, b)` (20_memory.md R63). -/
def loadPort (addr : Nat) (b : Byte) (s : State) : State × Response :=
  match s.memWrite addr b with
  | some s' => (s', .loaded)
  | none => (s, .loadRejected)

/-- What `READ_STATE` with this address returns of a state: `none` where the address is not valid (20_memory.md R64). -/
def State.view (s : State) (addr : Nat) : Option StateView :=
  if Valid addr then some { v := s.v, i := s.i, pc := s.pc, stack := s.stack, byte := s.mem.byteAt addr } else none

/-- `READ_STATE` (10_state.md R35, 20_memory.md R64): the state is never changed, and a rejected read answers nothing of it. -/
def readStatePort (addr : Nat) (s : State) : State × Response :=
  match s.view addr with
  | some view => (s, .view view)
  | none => (s, .readRejected)

/-- One transaction of one instance. -/
def transact (t : Transaction) (s : State) : State × Response :=
  match t with
  | .construct => (State.reset, .constructed)
  | .step rand => stepPort rand s
  | .load addr b => loadPort addr b s
  | .readDisp => (s, .display s.disp)
  | .readState addr => readStatePort addr s

/-- A sequence of transactions, one after the other (R36), with their answers. -/
def transactAll : List Transaction → State → State × List Response
  | [], s => (s, [])
  | t :: ts, s =>
    let first := transact t s
    let rest := transactAll ts first.1
    (rest.1, first.2 :: rest.2)

/-- Several instances (R37). -/
abbrev Board := List State

/-- `CONSTRUCT` of one more instance (R230). -/
def Board.construct (board : Board) : Board := board ++ [State.reset]

/-- One transaction of instance number `k`; `none` where there is no such instance. -/
def Board.transact (board : Board) (k : Nat) (t : Transaction) : Option (Board × Response) :=
  match board[k]? with
  | none => none
  | some s => some (board.set k (Machine.transact t s).1, (Machine.transact t s).2)

end Sys2Proof.Machine
end

