-- ==== Sys2Proof/Machine/Assembler.lean ====
section
/-! DEFINITION. The assembler of 30_encoding.md R79 (decision D16), over operand lists: which instruction a mnemonic with its operands is, the
directives, labels, and the `LOAD`s a program makes. Splitting a line of text into these is left out (assumption log 11). -/

namespace Sys2Proof.Machine

/-- The spellings of R79. `SNE` and `LD` each spell two instructions, told apart by their operands. -/
inductive AsmMnemonic where
  | cls | ret | jp | call | se | sne | ld | add | rnd | drw
  deriving DecidableEq, Repr

/-- An operand as written: `V` and a register number, `I`, a number, or a label. -/
inductive Operand where
  | reg (x : Nat)
  | index
  | num (n : Nat)
  | label (name : String)
  deriving DecidableEq, Repr

/-- A line of a program. `DW`, `DB` and `ORG` take numbers alone, no labels: R79 does not say (DESIGN CHOICE, assumption log 11). -/
inductive Item where
  | insn (m : AsmMnemonic) (operands : List Operand)
  /-- `DW w`: the word, big-endian. -/
  | dw (w : Nat)
  /-- `DB b`, or several bytes in a row. -/
  | db (bytes : List Nat)
  /-- `ORG addr`. -/
  | org (addr : Nat)
  /-- `name:` names the address of the next item; what that is before an `ORG`, see `labelsOf`. -/
  | label (name : String)
  deriving DecidableEq, Repr

inductive AsmError where
  /-- An operand out of its range: "an assembly error, never truncated". -/
  | operand (e : OperandError)
  /-- `DW` above 0xFFFF. -/
  | word (w : Nat)
  /-- No instruction of R79 has this mnemonic with operands of these kinds. -/
  | form (m : AsmMnemonic) (operands : List Operand)
  | undefinedLabel (name : String)
  | duplicateLabel (name : String)
  deriving DecidableEq, Repr

/-- The register whose name ends in this character: register `x` is spelled with the hexadecimal digit of `x`, in either case (R79). -/
def registerNamed? (digit : Char) : Option Operand :=
  ((List.range 16).find? (fun x => x.digitChar == digit.toLower)).map .reg

/-- The operand that a register name spells: `V0` to `VF`, case-insensitive, or `I`. -/
def Operand.ofName : List Char → Option Operand
  | ['V', digit] => registerNamed? digit
  | ['v', digit] => registerNamed? digit
  | ['I'] => some .index
  | _ => none

/-- Labels with their addresses. -/
abbrev Labels := List (String × Nat)

def Labels.find (name : String) : Labels → Option Nat
  | [] => none
  | (n, a) :: rest => if n = name then some a else Labels.find name rest

/-- The number an operand stands for, where a number may stand. A label may stand wherever a number may, whatever the width of that operand;
an undefined one is an error. DESIGN CHOICE: R79 only says that a label names an address. Assumption log 11. -/
def Operand.value (labels : Labels) (m : AsmMnemonic) (all : List Operand) : Operand → Except AsmError Nat
  | .num n => .ok n
  | .label name => match labels.find name with
    | some a => .ok a
    | none => .error (.undefinedLabel name)
  | .reg _ => .error (.form m all)
  | .index => .error (.form m all)

/-- The instruction a mnemonic with its operands spells (the table of R79). A label is accepted as an `addr`, a `byte` or a `nibble`
(`Operand.value`: DESIGN CHOICE, assumption log 11); the number it stands for is then held to that operand's range, as any number is
(`Source.check`). -/
def sourceOf (labels : Labels) (m : AsmMnemonic) (operands : List Operand) : Except AsmError Source :=
  match m, operands with
  | .cls, [] => .ok .cls
  | .ret, [] => .ok .ret
  | .jp, [a] => (a.value labels m operands).map .jp
  | .call, [a] => (a.value labels m operands).map .call
  | .se, [.reg x, b] => (b.value labels m operands).map (.se x)
  | .sne, [.reg x, .reg y] => .ok (.sneR x y)
  | .sne, [.reg x, b] => (b.value labels m operands).map (.sne x)
  | .ld, [.index, a] => (a.value labels m operands).map .ldI
  | .ld, [.reg x, b] => (b.value labels m operands).map (.ld x)
  | .add, [.reg x, b] => (b.value labels m operands).map (.add x)
  | .rnd, [.reg x, b] => (b.value labels m operands).map (.rnd x)
  | .drw, [.reg x, .reg y, n] => (n.value labels m operands).map (.drw x y)
  | _, _ => .error (.form m operands)

/-- The address of the item after one that stands at `loc`. -/
def Item.next (loc : Nat) : Item → Nat
  | .insn _ _ => loc + 2
  | .dw _ => loc + 2
  | .db bytes => loc + bytes.length
  | .org addr => addr
  | .label _ => loc

/-- The labels of a program, with the addresses they name; a name given twice is an error. A label that stands directly before an `ORG`
names the location BEFORE that `ORG`, not the one it sets: R79 is silent there. DESIGN CHOICE, both, assumption log 11. -/
def labelsOf : Nat → Labels → List Item → Except AsmError Labels
  | _, known, [] => .ok known
  | loc, known, .label name :: rest =>
    match known.find name with
    | some _ => .error (.duplicateLabel name)
    | none => labelsOf loc ((name, loc) :: known) rest
  | loc, known, item :: rest => labelsOf (item.next loc) known rest

/-- Bytes in a row, each in its range. -/
def checkBytes : List Nat → Except AsmError (List Byte)
  | [] => .ok []
  | b :: bs =>
    match checkByte b with
    | .error e => .error (.operand e)
    | .ok b => (checkBytes bs).map (b :: ·)

/-- The bytes an item places. -/
def Item.bytes (labels : Labels) : Item → Except AsmError (List Byte)
  | .insn m operands =>
    match sourceOf labels m operands with
    | .error e => .error e
    | .ok src =>
      match src.check with
      | .error e => .error (.operand e)
      | .ok i => .ok (encodeBytes i)
  | .dw w => if w < 65536 then .ok (bytesOfWord (BitVec.ofNat 16 w)) else .error (.word w)
  | .db bytes => checkBytes bytes
  | .org addr =>
    match checkAddr addr with
    | .error e => .error (.operand e)
    | .ok _ => .ok []
  | .label _ => .ok []

/-- Bytes at addresses `loc` and up. -/
def placeAt : Nat → List Byte → List (Nat × Byte)
  | _, [] => []
  | loc, b :: bs => (loc, b) :: placeAt (loc + 1) bs

def assembleFrom (labels : Labels) : Nat → List Item → Except AsmError (List (Nat × Byte))
  | _, [] => .ok []
  | loc, item :: rest =>
    match item.bytes labels with
    | .error e => .error e
    | .ok bytes => (assembleFrom labels (item.next loc) rest).map (placeAt loc bytes ++ ·)

/-- The `LOAD`s a program makes, in the order of its items; assembly starts at 0x200. Items may overlap after an `ORG`, and which of several
errors is answered is the first met, the labels' errors before all others: DESIGN CHOICE, assumption log 11. -/
def assemble (items : List Item) : Except AsmError (List (Nat × Byte)) :=
  match labelsOf 0x200 [] items with
  | .error e => .error e
  | .ok labels => assembleFrom labels 0x200 items

/-- The loader (70_reset_and_hazards.md R232): one `LOAD` a byte. -/
def loadAll : List (Nat × Byte) → State → State
  | [], s => s
  | (addr, b) :: rest, s => loadAll rest (loadPort addr b s).1

end Sys2Proof.Machine
end

