-- ==== Sys2Proof/Machine/Run.lean ====
section
/-! DEFINITION. A run and its end (70_reset_and_hazards.md R238, decision D21): a definition for claims. The hardware itself keeps stepping at
a self-jump. Assumption log 12. -/

namespace Sys2Proof.Machine

/-- `k` steps, each with the next free random byte, stopping at the first fatal condition (60_exceptions.md R205). -/
def stepN : Nat → State → Result
  | 0, s => .next s
  | k + 1, s =>
    match step s with
    | .next t => stepN k t
    | .fault f => .fault f
    | .refused r => .refused r

/-- How a run ended, with its last state. -/
inductive RunEnd where
  /-- (a) The step from `s` returned a fatal condition; the state stays `s`. -/
  | faulted (s : State) (f : Fault)
  /-- (b) A step from `s` would fetch `JP A` at its own address `A`. -/
  | selfJump (s : State)
  /-- (c) The driving loop stopped after the steps it was asked for. -/
  | stopped (s : State)
  /-- The model has no meaning for the instruction; never so. -/
  | refused (s : State) (r : Refusal)
  deriving DecidableEq, Repr

/-- A step from here would fetch the word `0x1000 | A` at its own address `A`. -/
def State.atSelfJump (s : State) : Bool :=
  match s.fetchWord with
  | .ok w => w == (0x1000 ||| s.pc)
  | .error _ => false

/-- A run from a launch state with one random byte a step. -/
def run : List Byte → State → RunEnd
  | [], s => if s.atSelfJump then .selfJump s else .stopped s
  | rand :: rands, s =>
    if s.atSelfJump then .selfJump s
    else match stepWith rand s with
      | .next s' => run rands s'
      | .fault f => .faulted s f
      | .refused r => .refused s r

end Sys2Proof.Machine
end

