-- ==== Sys2Proof/Safety.lean ====
section
/-! DEFINITION. What claims call a safe step and a safe run (60_exceptions.md R205: a run ends at its first fatal condition), and the
invariant of the states that runs reach. -/

namespace Sys2Proof.Machine

/-- A step from here raises no fatal condition, whatever random byte it gets. -/
def State.StepIsSafe (s : State) : Prop := ∀ rand : Byte, ∃ t : State, stepWith rand s = .next t

/-- The next `k` steps raise no fatal condition. -/
def State.RunsSafely (k : Nat) (s : State) : Prop := ∃ t : State, stepN k s = .next t

/-- What holds of every state a run can reach. -/
structure State.Inv (s : State) : Prop where
  /-- Memory is in its canonical form, below 4096 (20_memory.md R50). -/
  mem_wf : Memory.wf s.mem = true
  /-- The index register holds at most 0x0FFF (10_state.md R24). -/
  index_le : s.i.toNat ≤ 0x0FFF
  /-- The farthest `pc` is two words past the last fetchable address 0xFFE (10_state.md R25). -/
  pc_le : s.pc.toNat ≤ 0x1002
  /-- The depth is at most `STACK_CAPACITY` (10_state.md R27). -/
  depth_le : s.stack.length ≤ 16
  /-- A return address is `A + 2` for a fetchable `A` (41_control_flow.md R120). -/
  entries : ∀ e ∈ s.stack, 2 ≤ e.toNat ∧ e.toNat ≤ 0x1000
  /-- A step reports at most one event (40_step_engine.md R105). -/
  events_le : s.events.length ≤ 1
  /-- Nothing writes `C` under `COLLISION_STORAGE = VF` (10_state.md R23). -/
  collisionC_reset : s.collisionC = false

end Sys2Proof.Machine
end

