-- ==== Sys2Proof/Certificates/Slice0/Obligations.lean ====
section
/-! DEFINITION. The statements about the model. `exec i s` runs in the state AFTER the fetch advance, so there `s.pc` is `A + 2` for the
fetch address `A` (40_step_engine.md R102); `stepWith rand s` runs from the state BEFORE the step, where `s.pc` is `A`. An equation whose
right side is a record update of `s` is a result and a frame in one: every field it does not name, all of Memory among them, is unchanged.
The values of the parameters (wrap, 16, 0, VF) are the spec's decisions D2 to D5 (assumption log 5), and the form of the result (`events`,
`rand`, `tick`) is the model's (assumption logs 1 and 2). -/

namespace Sys2Proof.Statements

open Sys2Proof.Machine

/-- The word `w` stands at `pc` and `pc + 1`, both of them addresses of Memory, the high byte first (R54, R101). -/
abbrev Fetches (s : State) (w : Word) : Prop :=
  s.pc.toNat + 1 < 4096 ∧
    (Memory.byteAt s.mem s.pc.toNat).toNat * 256 + (Memory.byteAt s.mem (s.pc.toNat + 1)).toNat = w.toNat

/-- The state after the fetch advance of a step with this random byte. `pc` is the spec's (R101, R102); that the random byte, the step count
and the events stand in fields of the state is the model's choice (assumption logs 1 and 2). -/
def advanced (s : State) (rand : Byte) : State :=
  { s with pc := s.pc + 2, events := [], rand := rand, tick := s.tick + 1 }

/-- A step that fetches `w` answers the fetch-advanced state with this effect on it. -/
def StepDoes (w : Word) (effect : State → State) : Prop :=
  ∀ (s : State) (rand : Byte), Fetches s w → stepWith rand s = .next (effect (advanced s rand))

/-- A register index in its field of the word, at bit `k`. -/
def regAt (k : Nat) (x : RegIdx) : Word := BitVec.ofNat 16 x.val <<< k

/-- The pixel in column `x` and row `y`. -/
def pixel (s : State) (x : Fin 64) (y : Fin 32) : Bool := (s.disp.get y).get x

/-- Bit `b` of sprite row `r`, the most significant first. -/
def spriteBitAt (s : State) (r b : Nat) : Bool := (Memory.byteAt s.mem (s.i.toNat + r)).getLsbD (7 - b)

/-- R163 under `DRAW_EDGE = wrap`. -/
def wrapTarget (cx cy : Nat) (px : Fin 64) (py : Fin 32) : Prop := px.val = cx % 64 ∧ py.val = cy % 32

/-- R163 under `DRAW_EDGE = clip`: a coordinate outside the buffer has no target. -/
def clipTarget (cx cy : Nat) (px : Fin 64) (py : Fin 32) : Prop := px.val = cx ∧ py.val = cy

/-- Row `r` and bit `b` of the sprite that `DRW Vx, Vy` draws falls on this pixel. -/
def FallsOn (T : Nat → Nat → Fin 64 → Fin 32 → Prop) (x y : RegIdx) (s : State) (r b : Nat) (px : Fin 64) (py : Fin 32) : Prop :=
  T ((s.v.get x).toNat + b) ((s.v.get y).toNat + r) px py

/-- From `s` to `t` every pixel a sprite bit falls on is XORed with that bit, and every other pixel is as before (R161, R164). -/
def Composited (T : Nat → Nat → Fin 64 → Fin 32 → Prop) (x y : RegIdx) (n : Nibble) (s t : State) : Prop :=
  (∀ r b : Nat, r < n.toNat → b < 8 → ∀ px py, FallsOn T x y s r b px py →
    pixel t px py = (pixel s px py ^^ spriteBitAt s r b)) ∧
  (∀ px py, (∀ r b : Nat, r < n.toNat → b < 8 → ¬ FallsOn T x y s r b px py) → pixel t px py = pixel s px py)

/-- Some set pixel meets a set sprite bit (R164). -/
def Collision (T : Nat → Nat → Fin 64 → Fin 32 → Prop) (x y : RegIdx) (n : Nibble) (s : State) : Prop :=
  ∃ r b : Nat, r < n.toNat ∧ b < 8 ∧ ∃ px py, FallsOn T x y s r b px py ∧ pixel s px py = true ∧ spriteBitAt s r b = true

/-- Every sprite byte that `n` rows read lies in Memory (R162). -/
abbrev RowsInMemory (n : Nibble) (s : State) : Prop := n.toNat = 0 ∨ s.i.toNat + n.toNat ≤ 4096

/-- The table of R25: `pc` at the end of a step from `s` that decodes this. -/
def pcAfter (s : State) : Decoded → Word
  | .instr .ret => s.stack.getLast?.getD (s.pc + 2)
  | .instr (.jp nnn) => nnn.setWidth 16
  | .instr (.call nnn) => nnn.setWidth 16
  | .instr (.se x kk) => if s.v.get x = kk then s.pc + 4 else s.pc + 2
  | .instr (.sne x kk) => if s.v.get x = kk then s.pc + 2 else s.pc + 4
  | .instr (.sneR x y) => if s.v.get x = s.v.get y then s.pc + 2 else s.pc + 4
  | .instr (.drw _ _ _) => s.pc + 4
  | .instr .cls => s.pc + 2
  | .instr (.ld _ _) => s.pc + 2
  | .instr (.add _ _) => s.pc + 2
  | .instr (.ldI _) => s.pc + 2
  | .instr (.rnd _ _) => s.pc + 2
  | .unknown _ => s.pc + 2

end Sys2Proof.Statements

open Sys2Proof Sys2Proof.Machine Sys2Proof.Statements

/-! ## Encoding (30_encoding.md) -/

/-- R80, its last sentence: no bit of any operand of any instruction is lost, alone or in front of other bytes. -/
def Obligations.DecodeAfterEncode : Prop :=
  ∀ i : Instr, decode (encode i) = .instr i ∧ ∀ rest : List Byte, decodeBytes (encodeBytes i ++ rest) = .ok (i, rest)

/-- The other direction: a word that decodes is the word of what it decodes to, and an unknown word is reported as itself (R78, R81). -/
def Obligations.EncodeAfterDecode : Prop :=
  ∀ w : Word, (∀ i, decode w = .instr i → encode i = w) ∧ (∀ u, decode w = .unknown u → u = w)

/-- R80: the encoding function, with the bits written as the rule writes them. -/
def Obligations.EncodingFunctionOfTheSpec : Prop :=
  encode .cls = 0x00E0 ∧ encode .ret = 0x00EE ∧
  (∀ a : Addr12, encode (.jp a) = 0x1000 ||| a.setWidth 16 ∧ encode (.call a) = 0x2000 ||| a.setWidth 16 ∧
    encode (.ldI a) = 0xA000 ||| a.setWidth 16) ∧
  (∀ (x : RegIdx) (b : Byte),
    encode (.se x b) = 0x3000 ||| regAt 8 x ||| b.setWidth 16 ∧
    encode (.sne x b) = 0x4000 ||| regAt 8 x ||| b.setWidth 16 ∧
    encode (.ld x b) = 0x6000 ||| regAt 8 x ||| b.setWidth 16 ∧
    encode (.add x b) = 0x7000 ||| regAt 8 x ||| b.setWidth 16 ∧
    encode (.rnd x b) = 0xC000 ||| regAt 8 x ||| b.setWidth 16) ∧
  (∀ (x y : RegIdx) (n : Nibble),
    encode (.sneR x y) = 0x9000 ||| regAt 8 x ||| regAt 4 y ∧
    encode (.drw x y n) = 0xD000 ||| regAt 8 x ||| regAt 4 y ||| n.setWidth 16)

/-- R75: exactly these words are unknown opcodes (the low digit of the family 9 by decision D8). -/
def Obligations.UnknownWordsAreTheOpcodeMaps : Prop :=
  ∀ w : Word, decode w = .unknown w ↔
    w.toNat / 4096 ∈ [0x5, 0x8, 0xB, 0xE, 0xF] ∨
    (w.toNat / 4096 = 0 ∧ w ≠ 0x00E0 ∧ w ≠ 0x00EE) ∨
    (w.toNat / 4096 = 0x9 ∧ w.toNat % 16 ≠ 0)

/-- R81: the one row a known word selects is its instruction's, and an unknown word selects none. -/
def Obligations.OpcodeTableAgreesWithDecoder : Prop :=
  ∀ w : Word, (∀ i, decode w = .instr i → rowsSelected w = [i.mnemonic]) ∧ (∀ u, decode w = .unknown u → rowsSelected w = [])

/-- 95_test_vectors.md 2.1, the decode table: words written out from the encodings, one or more for every family. -/
def Obligations.DecodeTableOfTheTestVectors : Prop :=
  [0x0000, 0x00E1, 0x00FF, 0x0123, 0x5120, 0x8014, 0x9121, 0xB123, 0xE09E, 0xF00A].all (fun w : Word => decode w == .unknown w) = true ∧
  decode 0x00E0 = .instr .cls ∧ decode 0x00EE = .instr .ret ∧ decode 0x1234 = .instr (.jp 0x234) ∧
  decode 0x2FFF = .instr (.call 0xFFF) ∧ decode 0x3F01 = .instr (.se 0xF 0x01) ∧ decode 0x4000 = .instr (.sne 0x0 0x00) ∧
  decode 0x6A7F = .instr (.ld 0xA 0x7F) ∧ decode 0x7EFF = .instr (.add 0xE 0xFF) ∧ decode 0x9120 = .instr (.sneR 0x1 0x2) ∧
  decode 0x9FF0 = .instr (.sneR 0xF 0xF) ∧ decode 0xA123 = .instr (.ldI 0x123) ∧ decode 0xC5A5 = .instr (.rnd 0x5 0xA5) ∧
  decode 0xDABF = .instr (.drw 0xA 0xB 15) ∧ decode 0xD000 = .instr (.drw 0x0 0x0 0)

/-- R79: an operand in its range stands in the instruction as it was written, and one out of its range is an error. -/
def Obligations.OperandsAreNeverTruncated : Prop :=
  ∀ src : Source, (∀ i, src.check = .ok i → i.source = src) ∧
    ((∃ i, src.check = .ok i) ↔ match src with
      | .cls => True
      | .ret => True
      | .jp a => a ≤ 0xFFF
      | .call a => a ≤ 0xFFF
      | .ldI a => a ≤ 0xFFF
      | .se x b => x ≤ 0xF ∧ b ≤ 0xFF
      | .sne x b => x ≤ 0xF ∧ b ≤ 0xFF
      | .ld x b => x ≤ 0xF ∧ b ≤ 0xFF
      | .add x b => x ≤ 0xF ∧ b ≤ 0xFF
      | .rnd x b => x ≤ 0xF ∧ b ≤ 0xFF
      | .sneR x y => x ≤ 0xF ∧ y ≤ 0xF
      | .drw x y n => x ≤ 0xF ∧ y ≤ 0xF ∧ n ≤ 0xF)

/-! ## The step (40_step_engine.md) -/

/-- R102, R103: the step of a state whose word decodes to `i` is `exec i` of the fetch-advanced state; `step` takes the next free
random byte. -/
def Obligations.StepRunsDecodedInstruction : Prop :=
  ∀ (s : State) (w : Word) (i : Instr), Fetches s w → decode w = .instr i →
    (∀ rand, stepWith rand s = exec i (advanced s rand)) ∧ step s = exec i (advanced s (Config.randByte s.tick))

/-- R76: an unknown word changes nothing but the fetch advance and reports itself; 0x0000 is one. -/
def Obligations.UnknownOpcodeOnlyAdvances : Prop :=
  (∀ w : Word, decode w = .unknown w →
    ∀ (s : State) (rand : Byte), Fetches s w →
      stepWith rand s = .next { advanced s rand with events := [.unknownOpcode w s.pc] }) ∧
  decode 0x0000 = .unknown 0x0000

/-- R101: which word a step fetches, and where the fetch faults. No alignment and no lower bound is asked for. -/
def Obligations.FetchReadsBigEndianWordOrFaults : Prop :=
  ∀ s : State,
    (∀ w, s.fetchWord = .ok w ↔ Fetches s w) ∧
    (s.pc.toNat = 4095 → ∀ rand, stepWith rand s = .fault (.addressingViolation 4096 s.pc .fetch)) ∧
    (4096 ≤ s.pc.toNat → ∀ rand, stepWith rand s = .fault (.addressingViolation s.pc.toNat s.pc .fetch))

/-- R77, R103: a step is never refused; it gives a next state or one of the spec's fatal conditions. -/
def Obligations.StepIsNeverRefused : Prop :=
  ∀ (rand : Byte) (s : State) (r : Refusal), stepWith rand s ≠ .refused r ∧ step s ≠ .refused r

/-- R201, R202, R203: the fatal conditions, each exactly when its rule says and with its record. The depth 16 is `STACK_CAPACITY` (decision D5,
assumption log 5), and the least address of a draw is decision D7 (assumption log 14). -/
def Obligations.FatalConditionsExactly : Prop :=
  ∀ (rand : Byte) (s : State) (f : Fault), stepWith rand s = .fault f ↔
    (4096 ≤ s.pc.toNat ∧ f = .addressingViolation s.pc.toNat s.pc .fetch) ∨
    (s.pc.toNat = 4095 ∧ f = .addressingViolation 4096 s.pc .fetch) ∨
    ∃ w, Fetches s w ∧
      ((∃ nnn, decode w = .instr (.call nnn) ∧ s.stack.length = 16 ∧ f = .stackOverflow s.pc nnn) ∨
       (∃ x y n r, decode w = .instr (.drw x y n) ∧ r < n.toNat ∧ 4096 ≤ s.i.toNat + r ∧
         (∀ q, q < r → s.i.toNat + q < 4096) ∧ f = .addressingViolation (s.i.toNat + r) s.pc .draw))

/-- R106, R109, R205: the caller sees the state of before, and stepping again raises the same condition whatever the random byte. That the
state after a fatal step is the state before it is decision D6, the spec's own reading in R106; the model takes it over (assumption log 4,
DEDUCED, unsafe for a claim such as this one). -/
def Obligations.FatalStepChangesNothingAndRepeats : Prop :=
  ∀ (rand : Byte) (s : State) (f : Fault), stepWith rand s = .fault f →
    stepPort rand s = (s, .fault f) ∧ ∀ rand', stepWith rand' s = .fault f

/-- R107, R109: only `RND` reads the random byte; any other step differs at most in the input field itself. -/
def Obligations.RandomByteReachesOnlyRnd : Prop :=
  ∀ (s : State), (∀ w, Fetches s w → ∀ x kk, decode w ≠ .instr (.rnd x kk)) →
    ∀ (rand rand' : Byte) (t : State), stepWith rand s = .next t → stepWith rand' s = .next { t with rand := rand' }

/-- R105, R203: what a step reports; never more than one event. -/
def Obligations.EventsOfEveryStep : Prop :=
  ∀ (rand : Byte) (s t : State) (w : Word), Fetches s w → stepWith rand s = .next t →
    t.events = match decode w with
      | .unknown u => [.unknownOpcode u s.pc]
      | .instr i => if i = .ret ∧ s.stack = [] then [.emptyStackReturn s.pc] else []

/-- R25: the table of where `pc` ends, with `SNE_R_EQ_EXTRA = 0` (decision D3) and `DRAW_EXTRA_ADVANCE = 2` (conflict C2): assumption log 5. -/
def Obligations.PcAfterEveryStep : Prop :=
  ∀ (rand : Byte) (s t : State) (w : Word), Fetches s w → stepWith rand s = .next t → t.pc = pcAfter s (decode w)

/-! ## Rules of the whole machine -/

/-- The invariant of Safety.lean, from every state that has it (R24, R27, R105, R120; the bound of `pc` from R25). The depth 16 and the untouched `C`
are the parameter values of decisions D5 and D2 (assumption log 5). -/
def Obligations.EveryStepKeepsInvariant : Prop :=
  ∀ (rand : Byte) (s t : State), s.Inv → (stepWith rand s = .next t ∨ step s = .next t) → t.Inv

/-- The state after construction has the invariant; that no event stands in it is the model's choice (assumption log 1). -/
def Obligations.ResetHasInvariant : Prop := State.reset.Inv

/-- R51: no instruction writes Memory, the unknown opcode included. -/
def Obligations.NoStepWritesMemory : Prop :=
  ∀ (rand : Byte) (s t : State), stepWith rand s = .next t → t.mem = s.mem

/-- R22, R23, R30: who writes a general register, `DRW` the register F under `COLLISION_STORAGE = VF` (decision D2, assumption log 5). -/
def Obligations.OnlyItsWritersChangeARegister : Prop :=
  ∀ (rand : Byte) (s t : State) (k : RegIdx), stepWith rand s = .next t → t.v.get k ≠ s.v.get k →
    ∃ w, Fetches s w ∧
      ((∃ kk, decode w = .instr (.ld k kk) ∨ decode w = .instr (.add k kk) ∨ decode w = .instr (.rnd k kk)) ∨
       (k = 0xF ∧ ∃ x y n, decode w = .instr (.drw x y n)))

/-- R24, R27, R29: who writes the index register, the Call Stack and the Display Buffer; `C` has no writer under
`COLLISION_STORAGE = VF` (decision D2, assumption log 5). -/
def Obligations.OnlyTheirWritersChangeIndexStackDisplay : Prop :=
  ∀ (rand : Byte) (s t : State), stepWith rand s = .next t →
    (t.i ≠ s.i → ∃ w nnn, Fetches s w ∧ decode w = .instr (.ldI nnn)) ∧
    (t.stack ≠ s.stack → ∃ w, Fetches s w ∧ (decode w = .instr .ret ∨ ∃ nnn, decode w = .instr (.call nnn))) ∧
    (t.disp ≠ s.disp → ∃ w, Fetches s w ∧ (decode w = .instr .cls ∨ ∃ x y n, decode w = .instr (.drw x y n))) ∧
    t.collisionC = s.collisionC

/-! ## Control flow (41_control_flow.md) -/

/-- R120: pop into `pc`, or on an empty stack report and leave `pc` at `A + 2`. A value a `CALL` pushed is at most 0x1000, and a step from
0x1000 faults. -/
def Obligations.RetPopsOrReports : Prop :=
  (∀ s : State, s.stack = [] →
    exec .ret s = .next { s with events := s.events ++ [.emptyStackReturn (s.pc - 2)] }) ∧
  (∀ (s : State) (st : List Word) (top : Word), s.stack = st ++ [top] →
    exec .ret s = .next { s with stack := st, pc := top }) ∧
  (∀ (s : State) (rand : Byte), Fetches s 0x00EE → s.stack = [] →
    stepWith rand s = .next { advanced s rand with events := [.emptyStackReturn s.pc] }) ∧
  (∀ (s : State) (rand : Byte) (st : List Word) (top : Word), Fetches s 0x00EE → s.stack = st ++ [top] →
    stepWith rand s = .next { advanced s rand with stack := st, pc := top }) ∧
  (∀ (s t : State) (rand : Byte) (nnn : Addr12), Fetches s (0x2000 ||| nnn.setWidth 16) → stepWith rand s = .next t →
    ∃ pushed, t.stack = s.stack ++ [pushed] ∧ pushed.toNat = s.pc.toNat + 2 ∧ pushed.toNat ≤ 0x1000) ∧
  (∀ (s : State) (rand : Byte), s.pc = 0x1000 → stepWith rand s = .fault (.addressingViolation 0x1000 0x1000 .fetch))

/-- R121: `pc` becomes exactly `nnn`, from anywhere and with no check, and nothing else changes. -/
def Obligations.JpSetsPc : Prop :=
  ∀ nnn : Addr12,
    (∀ s : State, exec (.jp nnn) s = .next { s with pc := nnn.setWidth 16 }) ∧
    StepDoes (0x1000 ||| nnn.setWidth 16) (fun s => { s with pc := nnn.setWidth 16 })

/-- R122: below the capacity, 16 (decision D5, assumption log 5), the address after the call is pushed; at it the call is fatal. -/
def Obligations.CallPushesOrOverflows : Prop :=
  ∀ (nnn : Addr12) (s : State),
    (s.stack.length < 16 → exec (.call nnn) s = .next { s with stack := s.stack ++ [s.pc], pc := nnn.setWidth 16 }) ∧
    (s.stack.length = 16 → exec (.call nnn) s = .fault (.stackOverflow (s.pc - 2) nnn)) ∧
    (∀ rand : Byte, Fetches s (0x2000 ||| nnn.setWidth 16) →
      (s.stack.length < 16 →
        stepWith rand s = .next { advanced s rand with stack := s.stack ++ [s.pc + 2], pc := nnn.setWidth 16 }) ∧
      (s.stack.length = 16 → stepWith rand s = .fault (.stackOverflow s.pc nnn)))

/-- The source's property of calls (95_test_vectors.md S4): a `RET` that finds the stack a `CALL` left goes back to the address after the
call and leaves the stack at its prior depth, whatever else happened in between. -/
def Obligations.RetUndoesCall : Prop :=
  ∀ (nnn : Addr12) (s t u : State), exec (.call nnn) s = .next t → u.stack = t.stack →
    exec .ret u = .next { u with pc := s.pc, stack := s.stack }

/-- R123: 4 in all when `V[x]` equals `kk`, 2 otherwise; a skip at 0xFFC leads to a faulting fetch at 0x1000. -/
def Obligations.SeSkipsWhenEqual : Prop :=
  (∀ (x : RegIdx) (kk : Byte),
    (∀ s : State, exec (.se x kk) s = .next { s with pc := if s.v.get x = kk then s.pc + 2 else s.pc }) ∧
    (∀ (s : State) (rand : Byte), Fetches s (0x3000 ||| regAt 8 x ||| kk.setWidth 16) →
      stepWith rand s = .next { advanced s rand with pc := if s.v.get x = kk then s.pc + 4 else s.pc + 2 })) ∧
  (∀ (s : State) (rand : Byte), s.pc = 0x1000 → stepWith rand s = .fault (.addressingViolation 0x1000 0x1000 .fetch))

/-- R124: 4 in all when `V[x]` differs from `kk`, 2 when equal. -/
def Obligations.SneSkipsWhenUnequal : Prop :=
  ∀ (x : RegIdx) (kk : Byte),
    (∀ s : State, exec (.sne x kk) s = .next { s with pc := if s.v.get x ≠ kk then s.pc + 2 else s.pc }) ∧
    (∀ (s : State) (rand : Byte), Fetches s (0x4000 ||| regAt 8 x ||| kk.setWidth 16) →
      stepWith rand s = .next { advanced s rand with pc := if s.v.get x ≠ kk then s.pc + 4 else s.pc + 2 })

/-- R125 with the spec's `SNE_R_EQ_EXTRA = 0`, and with any other value of that parameter. -/
def Obligations.SneRSkipsWhenUnequal : Prop :=
  ∀ (x y : RegIdx),
    (∀ s : State, exec (.sneR x y) s = .next { s with pc := if s.v.get x ≠ s.v.get y then s.pc + 2 else s.pc }) ∧
    (∀ (s : State) (rand : Byte), Fetches s (0x9000 ||| regAt 8 x ||| regAt 4 y) →
      stepWith rand s = .next { advanced s rand with pc := if s.v.get x ≠ s.v.get y then s.pc + 4 else s.pc + 2 }) ∧
    (∀ (p : Params) (s : State),
      sneRWith p x y s = .next { s with pc := if s.v.get x ≠ s.v.get y then s.pc + 2 else s.pc + p.sneREqExtra })

/-- R28: the rule of `CALL` for every capacity, and for the unbounded stack. -/
def Obligations.CallUnderAnyCapacity : Prop :=
  ∀ (p : Params) (nnn : Addr12) (s : State),
    ((∀ capacity, p.stackCapacity = some capacity → s.stack.length < capacity) →
      callWith p nnn s = .next { s with stack := s.stack ++ [s.pc], pc := nnn.setWidth 16 }) ∧
    (p.stackCapacity = some s.stack.length → callWith p nnn s = .fault (.stackOverflow (s.pc - 2) nnn))

/-- R238: at a self-jump the hardware keeps stepping and changes nothing, and that is where a run ends (`run` is the model's form of
decision D21, assumption log 12). -/
def Obligations.SelfJumpChangesNothing : Prop :=
  ∀ (s : State) (nnn : Addr12), s.pc = nnn.setWidth 16 → Fetches s (0x1000 ||| nnn.setWidth 16) →
    (∀ rand, ∃ t, stepWith rand s = .next t ∧ State.SameArch s t ∧ t.events = []) ∧ ∀ rands, run rands s = .selfJump s

/-! ## Register operations (42_register_ops.md) -/

/-- R140: `V[x]` becomes exactly `kk`. -/
def Obligations.LdLoadsImmediate : Prop :=
  ∀ (x : RegIdx) (kk : Byte),
    (∀ s : State, exec (.ld x kk) s = .next { s with v := s.v.set x kk } ∧ (s.v.set x kk).get x = kk) ∧
    StepDoes (0x6000 ||| regAt 8 x ||| kk.setWidth 16) (fun s => { s with v := s.v.set x kk })

/-- R141: addition modulo 256 into `V[x]` alone; no carry goes to `V[0xF]` or anywhere. -/
def Obligations.AddWrapsWithoutCarry : Prop :=
  ∀ (x : RegIdx) (kk : Byte),
    (∀ s : State, exec (.add x kk) s =
      .next { s with v := s.v.set x (BitVec.ofNat 8 (((s.v.get x).toNat + kk.toNat) % 256)) }) ∧
    StepDoes (0x7000 ||| regAt 8 x ||| kk.setWidth 16)
      (fun s => { s with v := s.v.set x (BitVec.ofNat 8 (((s.v.get x).toNat + kk.toNat) % 256)) })

/-- R142: `I` becomes `nnn` with zeros above, unchecked. -/
def Obligations.LdILoadsIndex : Prop :=
  ∀ nnn : Addr12,
    (∀ s : State, exec (.ldI nnn) s = .next { s with i := nnn.setWidth 16 }) ∧
    (nnn.setWidth 16).toNat = nnn.toNat ∧
    StepDoes (0xA000 ||| nnn.setWidth 16) (fun s => { s with i := nnn.setWidth 16 })

/-- R143, for every random byte: `V[x]` becomes `rand & kk`, which has no bit outside `kk` and is at most `kk`. -/
def Obligations.RndMasksTheRandomByte : Prop :=
  ∀ (x : RegIdx) (kk : Byte),
    (∀ s : State, exec (.rnd x kk) s = .next { s with v := s.v.set x (s.rand &&& kk) }) ∧
    (∀ (s : State) (rand : Byte), Fetches s (0xC000 ||| regAt 8 x ||| kk.setWidth 16) →
      stepWith rand s = .next { advanced s rand with v := s.v.set x (rand &&& kk) }) ∧
    (∀ rand : Byte, (rand &&& kk) &&& kk = rand &&& kk ∧ (rand &&& kk).toNat ≤ kk.toNat)

/-! ## Display (43_display.md) -/

/-- R160: all 2048 pixels become unset; no register, and `V[0xF]` in particular, is written. -/
def Obligations.ClsClearsEveryPixel : Prop :=
  (∀ s : State, exec .cls s = .next { s with disp := Vector.replicate 32 (Vector.replicate 64 false) } ∧
    ∀ x y, pixel { s with disp := Vector.replicate 32 (Vector.replicate 64 false) } x y = false) ∧
  StepDoes 0x00E0 (fun s => { s with disp := Vector.replicate 32 (Vector.replicate 64 false) })

/-- R161 to R166 under `DRAW_EDGE = wrap` and `COLLISION_STORAGE = VF`: pixels, collision flag, `pc`, and nothing else. -/
def Obligations.DrwCompositesAndDetectsCollision : Prop :=
  ∀ (x y : RegIdx) (n : Nibble) (s : State), RowsInMemory n s →
    ∃ t : State, exec (.drw x y n) s = .next t ∧ Composited wrapTarget x y n s t ∧
      (Collision wrapTarget x y n s → t.v.get 0xF = 0x01) ∧ (¬ Collision wrapTarget x y n s → t.v.get 0xF = 0x00) ∧
      t = { s with disp := t.disp, v := s.v.set 0xF (t.v.get 0xF), pc := s.pc + 2 }

/-- R162: a row outside Memory is fatal, at the least such address, for any parameters. -/
def Obligations.DrwOutsideMemoryFaults : Prop :=
  ∀ (p : Params) (x y : RegIdx) (n : Nibble) (s : State), ¬ RowsInMemory n s →
    ∃ addr : Nat, 4096 ≤ addr ∧ s.i.toNat ≤ addr ∧ addr < s.i.toNat + n.toNat ∧ (addr = 4096 ∨ addr = s.i.toNat) ∧
      exec (.drw x y n) s = .fault (.addressingViolation addr (s.pc - 2) .draw) ∧
      drwWith p x y n s = .fault (.addressingViolation addr (s.pc - 2) .draw)

/-- R163, R164 under `DRAW_EDGE = clip` (the alternative of decision D4): a bit outside the buffer writes no pixel and cannot collide. The flag is
read in `V[0xF]` (`COLLISION_STORAGE = VF`, decision D2, assumption log 5). -/
def Obligations.DrwClipDropsBitsOutside : Prop :=
  ∀ (x y : RegIdx) (n : Nibble) (s : State), RowsInMemory n s →
    ∃ t : State, drwWith { params with drawEdge := .clip } x y n s = .next t ∧ Composited clipTarget x y n s t ∧
      (Collision clipTarget x y n s → t.v.get 0xF = 0x01) ∧ (¬ Collision clipTarget x y n s → t.v.get 0xF = 0x00) ∧
      t = { s with disp := t.disp, v := s.v.set 0xF (t.v.get 0xF), pc := s.pc + 2 }

/-- R23, R165 under `COLLISION_STORAGE = separate`: the result goes to `C`, and no register is written. -/
def Obligations.DrwSeparateFlagLeavesRegisters : Prop :=
  ∀ (x y : RegIdx) (n : Nibble) (s : State), RowsInMemory n s →
    ∃ t : State, drwWith { params with collisionStorage := .separate } x y n s = .next t ∧ Composited wrapTarget x y n s t ∧
      (t.collisionC = true ↔ Collision wrapTarget x y n s) ∧
      t = { s with disp := t.disp, collisionC := t.collisionC, pc := s.pc + 2 }

/-- XOR self-cancel (R164, R167) for every sprite and place: drawing twice at coordinates outside `VF` restores the display; and where the
first draw did not collide and the sprite has a set bit, the second one does. The flag is read in `V[0xF]` (`COLLISION_STORAGE = VF`, decision
D2), and that the second draw collides at every place needs `DRAW_EDGE = wrap` (decision D4): assumption log 5. -/
def Obligations.DrawingTwiceRestoresTheDisplay : Prop :=
  ∀ (x y : RegIdx) (n : Nibble) (s t : State), x ≠ 0xF → y ≠ 0xF → exec (.drw x y n) s = .next t →
    ∃ u : State, exec (.drw x y n) t = .next u ∧ u.disp = s.disp ∧
      (t.v.get 0xF = 0x00 → (∃ r b : Nat, r < n.toNat ∧ b < 8 ∧ spriteBitAt s r b = true) → u.v.get 0xF = 0x01)

/-- R167: the document's two worked examples, at any registers that hold 0 and any sprite address. Its collision flag is read in `V[0xF]`
(R165 under `COLLISION_STORAGE = VF`, decision D2, assumption log 5). -/
def Obligations.WorkedExampleOfTheSpec : Prop :=
  ∀ (x y : RegIdx) (s : State), s.i.toNat < 4096 → Memory.byteAt s.mem s.i.toNat = 0xFF → s.v.get x = 0 → s.v.get y = 0 →
    (∀ px py, pixel s px py = false) →
    ∃ t u : State, exec (.drw x y 1) s = .next t ∧
      (∀ px py, pixel t px py = decide (py.val = 0 ∧ px.val ≤ 7)) ∧ t.v.get 0xF = 0 ∧
      exec (.drw x y 1) t = .next u ∧ (∀ px py, pixel u px py = false) ∧ u.v.get 0xF = 1

/-! ## Reset, ports, Memory -/

/-- R34: the value of every piece of state at construction. -/
def Obligations.ResetValues : Prop :=
  (∀ a : Nat, a < 4096 → Memory.byteAt State.reset.mem a = 0x00) ∧ (∀ x : RegIdx, State.reset.v.get x = 0x00) ∧
  State.reset.i = 0x0000 ∧ State.reset.pc = 0x0200 ∧ State.reset.stack = [] ∧ (∀ x y, pixel State.reset x y = false) ∧
  State.reset.collisionC = false

/-- R233: nothing loaded. 1792 unknown opcodes from 0x200 to 0xFFE, then a fetch fault, whatever the random bytes. -/
def Obligations.UnloadedMachineRunsOffTheTop : Prop :=
  (∀ k : Nat, k ≤ 1792 → ∃ s : State, stepN k State.reset = .next s ∧ s.pc.toNat = 0x200 + 2 * k ∧
    State.SameArch { State.reset with pc := s.pc } s ∧ (k ≠ 0 → s.events = [.unknownOpcode 0x0000 (s.pc - 2)])) ∧
  stepN 1793 State.reset = .fault (.addressingViolation 0x1000 0x1000 .fetch)

/-- R63: `LOAD` changes one byte of Memory and nothing else, keeps the canonical form, and outside Memory is rejected with no effect. -/
def Obligations.LoadWritesOneByteOrIsRejected : Prop :=
  ∀ (s : State) (addr : Nat) (b : Byte), Memory.wf s.mem = true →
    (addr < 4096 → ∃ m : Memory, transact (.load addr b) s = ({ s with mem := m }, .loaded) ∧ Memory.wf m = true ∧
      ∀ a : Nat, Memory.byteAt m a = if a = addr then b else Memory.byteAt s.mem a) ∧
    (4096 ≤ addr → transact (.load addr b) s = (s, .loadRejected))

/-- R62, R232: a word loaded at `pc` between steps is the word the next step fetches. -/
def Obligations.LoadedWordIsFetched : Prop :=
  ∀ (s : State) (w : Word), Memory.wf s.mem = true → s.pc.toNat + 1 < 4096 →
    Fetches (transactAll [.load s.pc.toNat (highByte w), .load (s.pc.toNat + 1) (lowByte w)] s).1 w ∧
    Fetches (s.withFetchWord 16 w.toNat) w

/-- The canonical form (assumption log 7) does its work: two memories that read the same everywhere are the same data. -/
def Obligations.CanonicalMemoriesThatReadTheSameAreEqual : Prop :=
  ∀ m m' : Memory, Memory.wf m = true → Memory.wf m' = true → (∀ a : Nat, Memory.byteAt m a = Memory.byteAt m' a) → m = m'

/-- R35, R64: the read ports return the state and change nothing; a `READ_STATE` that names an address outside Memory is rejected and
returns nothing. -/
def Obligations.ReadPortsOnlyRead : Prop :=
  ∀ (s : State) (addr : Nat),
    transact .readDisp s = (s, .display s.disp) ∧
    (addr < 4096 → transact (.readState addr) s = (s, .view ⟨s.v, s.i, s.pc, s.stack, Memory.byteAt s.mem addr⟩)) ∧
    (4096 ≤ addr → transact (.readState addr) s = (s, .readRejected))

/-- R37: a transaction of one instance neither writes nor reads any other. -/
def Obligations.InstancesShareNothing : Prop :=
  ∀ (board other : Board) (k : Nat) (t : Transaction) (after : Board) (answer : Response),
    board.transact k t = some (after, answer) →
    (∀ j : Nat, j ≠ k → after[j]? = board[j]?) ∧
    (other[k]? = board[k]? → ∃ after' : Board, other.transact k t = some (after', answer) ∧ after'[k]? = after[k]?)

/-- R238 (a), R205: where a run ends with a fault, the step is fatal whatever the random byte, and it is no self-jump (`run` is the model's
form of decision D21, assumption log 12). -/
def Obligations.FaultedRunEndsWhereEveryStepFaults : Prop :=
  ∀ (rands : List Byte) (s t : State) (f : Fault), run rands s = .faulted t f →
    t.atSelfJump = false ∧ ∀ rand, stepWith rand t = .fault f
end

