-- ==== Sys2Proof/Laws/Drawing.lean ====
section
/-! SUPPORT. Pixels and the plotting of one sprite bit (43_display.md R163, R164). -/

namespace Sys2Proof.Machine

@[simp] theorem Display.pix_clear (x : Fin 64) (y : Fin 32) : Display.pix Display.clear x y = false := by
  simp [Display.pix, Display.clear, Vector.get_eq_getElem]

@[simp] theorem Display.pix_setPix_same (d : Display) (x : Fin 64) (y : Fin 32) (b : Bool) :
    Display.pix (Display.setPix d x y b) x y = b := by
  simp [Display.pix, Display.setPix, Vector.get_eq_getElem]

theorem Display.pix_setPix (d : Display) (x x' : Fin 64) (y y' : Fin 32) (b : Bool) :
    Display.pix (Display.setPix d x y b) x' y' = if x' = x ∧ y' = y then b else Display.pix d x' y' := by
  simp only [Display.pix, Display.setPix, Vector.get_eq_getElem, Vector.getElem_set, Fin.ext_iff]
  by_cases hy : y.val = y'.val
  · by_cases hx : x.val = x'.val
    · simp [hy, hx]
    · simp [hy, hx, eq_comm]
  · simp [hy, Ne.symm hy]

/-- Two displays with the same pixels are the same display. -/
theorem Display.ext_pix (d e : Display) (h : ∀ x y, Display.pix d x y = Display.pix e x y) : d = e := by
  apply Vector.ext
  intro y hy
  apply Vector.ext
  intro x hx
  simpa [Display.pix, Vector.get_eq_getElem] using h ⟨x, hx⟩ ⟨y, hy⟩

/-- A bit that is dropped changes nothing. -/
theorem plot_dropped (edge : DrawEdge) (cx cy : Nat) (bit : Bool) (c : Canvas) (h : target edge cx cy = none) :
    plot edge cx cy bit c = c := by simp [plot, h]

/-- The pixels after one bit. -/
theorem plot_pix (edge : DrawEdge) (cx cy : Nat) (bit : Bool) (c : Canvas) (x : Fin 64) (y : Fin 32) :
    Display.pix (plot edge cx cy bit c).1 x y =
      (Display.pix c.1 x y ^^ (decide (target edge cx cy = some (x, y)) && bit)) := by
  unfold plot
  split
  · simp [*]
  · rename_i px py h
    by_cases hxy : x = px ∧ y = py
    · obtain ⟨rfl, rfl⟩ := hxy; simp [h]
    · have hne : ¬ (px = x ∧ py = y) := fun e => hxy ⟨e.1.symm, e.2.symm⟩
      simp [Display.pix_setPix, hxy, h, hne]

/-- The collision after one bit. -/
theorem plot_collision (edge : DrawEdge) (cx cy : Nat) (bit : Bool) (c : Canvas) :
    (plot edge cx cy bit c).2 = true ↔
      c.2 = true ∨ ∃ x y, target edge cx cy = some (x, y) ∧ Display.pix c.1 x y = true ∧ bit = true := by
  unfold plot
  split
  · simp [*]
  · rename_i px py h
    simp [h, collides]

theorem target_wrap (cx cy : Nat) (x : Fin 64) (y : Fin 32) :
    target .wrap cx cy = some (x, y) ↔ cx % 64 = x.val ∧ cy % 32 = y.val := by
  simp [target, Fin.ext_iff]

theorem target_clip (cx cy : Nat) (x : Fin 64) (y : Fin 32) :
    target .clip cx cy = some (x, y) ↔ cx = x.val ∧ cy = y.val := by
  have hx := x.isLt
  have hy := y.isLt
  simp only [target]
  split
  · simp [Fin.ext_iff]
  · simp; omega

end Sys2Proof.Machine
end

