-- ==== Sys2Proof/Laws/Compositing.lean ====
section
/-! SUPPORT. What a whole draw does to every pixel and to the collision (43_display.md R161, R164): no pixel is targeted twice, so the order of
compositing does not matter. -/

namespace Sys2Proof.Machine

/-- A sprite bit with its coordinates before the edge rule. -/
abbrev Dot := Nat × Nat × Bool

/-- Plotting dots one after the other. -/
def plotAll (edge : DrawEdge) (dots : List Dot) (c : Canvas) : Canvas :=
  dots.foldl (fun c p => plot edge p.1 p.2.1 p.2.2 c) c

/-- The dots of one sprite row. -/
def rowDots (vx cy : Nat) (row : Byte) : List Dot := (List.range 8).map fun b => (vx + b, cy, spriteBit row b)

/-- The dots of a sprite, in the order of R161. -/
def spriteDots (vx : Nat) : Nat → List Byte → List Dot
  | _, [] => []
  | cy, row :: rows => rowDots vx cy row ++ spriteDots vx (cy + 1) rows

/-- Two dots fall on different pixels, if on any. -/
def Apart (edge : DrawEdge) (p q : Dot) : Prop := ∀ at_, target edge p.1 p.2.1 = some at_ → target edge q.1 q.2.1 ≠ some at_

theorem drawRows_eq_plotAll (edge : DrawEdge) (vx cy : Nat) (rows : List Byte) (c : Canvas) :
    drawRows edge vx cy rows c = plotAll edge (spriteDots vx cy rows) c := by
  induction rows generalizing cy c with
  | nil => rfl
  | cons row rows ih =>
    rw [drawRows, ih, drawRow, spriteDots, plotAll, plotAll, List.foldl_append, rowDots, List.foldl_map]

theorem mem_spriteDots (vx cy : Nat) (rows : List Byte) (p : Dot) :
    p ∈ spriteDots vx cy rows ↔ ∃ r b, ∃ h : r < rows.length, b < 8 ∧ p = (vx + b, cy + r, spriteBit rows[r] b) := by
  induction rows generalizing cy with
  | nil => simp [spriteDots]
  | cons row rows ih =>
    simp only [spriteDots, List.mem_append, ih, rowDots, List.mem_map, List.mem_range]
    constructor
    · rintro (⟨b, hb, rfl⟩ | ⟨r, b, h, hb, rfl⟩)
      · exact ⟨0, b, by simp, hb, rfl⟩
      · exact ⟨r + 1, b, by simpa using h, hb, by simp; omega⟩
    · rintro ⟨r, b, h, hb, rfl⟩
      cases r with
      | zero => exact .inl ⟨b, hb, rfl⟩
      | succ r => exact .inr ⟨r, b, by simpa using h, hb, by simp; omega⟩

/-- Dots less than 8 columns and 15 rows apart that fall on the same pixel are the same dot (R164). -/
theorem target_injective (edge : DrawEdge) {vx vy r b r' b' : Nat} {at_ : Fin 64 × Fin 32} (hr : r < 15) (hr' : r' < 15)
    (hb : b < 8) (hb' : b' < 8) (h : target edge (vx + b) (vy + r) = some at_) (h' : target edge (vx + b') (vy + r') = some at_) :
    r = r' ∧ b = b' := by
  obtain ⟨x, y⟩ := at_
  cases edge with
  | wrap => rw [target_wrap] at h h'; omega
  | clip => rw [target_clip] at h h'; omega

theorem spriteDots_apart (edge : DrawEdge) (vx cy : Nat) (rows : List Byte) (hl : rows.length ≤ 15) :
    (spriteDots vx cy rows).Pairwise (Apart edge) := by
  induction rows generalizing cy with
  | nil => exact List.Pairwise.nil
  | cons row rows ih =>
    have hlen : rows.length + 1 ≤ 15 := hl
    refine List.pairwise_append.2 ⟨?_, ih _ (by omega), ?_⟩
    · rw [rowDots, List.pairwise_map]
      refine List.Pairwise.imp_of_mem ?_ List.pairwise_lt_range
      intro a b ha hb hab at_ h h'
      have := target_injective edge (vy := cy) (r := 0) (r' := 0) (by omega) (by omega) (List.mem_range.1 ha)
        (List.mem_range.1 hb) h h'
      omega
    · intro p hp p' hp' at_ h h'
      obtain ⟨b, hb, rfl⟩ := List.mem_map.1 hp
      obtain ⟨r, b', hr, hb', rfl⟩ := (mem_spriteDots ..).1 hp'
      rw [show cy + 1 + r = cy + (r + 1) by omega] at h'
      have := target_injective edge (vy := cy) (r := 0) (r' := r + 1) (by omega) (by omega) (List.mem_range.1 hb) hb' h h'
      omega

theorem plotAll_pix_miss (edge : DrawEdge) (dots : List Dot) (c : Canvas) (x : Fin 64) (y : Fin 32)
    (h : ∀ p ∈ dots, target edge p.1 p.2.1 ≠ some (x, y)) : Display.pix (plotAll edge dots c).1 x y = Display.pix c.1 x y := by
  induction dots generalizing c with
  | nil => rfl
  | cons p dots ih =>
    have := ih (plot edge p.1 p.2.1 p.2.2 c) fun q hq => h q (List.mem_cons_of_mem _ hq)
    simp only [plotAll, List.foldl_cons] at this ⊢
    rw [this, plot_pix]
    simp [h p]

theorem plotAll_pix_hit (edge : DrawEdge) {dots : List Dot} (hd : dots.Pairwise (Apart edge)) {p : Dot} (hp : p ∈ dots) (c : Canvas)
    {x : Fin 64} {y : Fin 32} (h : target edge p.1 p.2.1 = some (x, y)) :
    Display.pix (plotAll edge dots c).1 x y = (Display.pix c.1 x y ^^ p.2.2) := by
  obtain ⟨before, later, rfl⟩ := List.append_of_mem hp
  obtain ⟨-, htail, hcross⟩ := List.pairwise_append.1 hd
  have hsplit : plotAll edge (before ++ p :: later) c = plotAll edge later (plot edge p.1 p.2.1 p.2.2 (plotAll edge before c)) := by
    simp [plotAll]
  rw [hsplit, plotAll_pix_miss, plot_pix, plotAll_pix_miss]
  · simp [h]
  · exact fun q hq hq' => hcross q hq p (by simp) _ hq' h
  · exact fun q hq => (List.rel_of_pairwise_cons htail hq) _ h

theorem plotAll_collision (edge : DrawEdge) {dots : List Dot} (hd : dots.Pairwise (Apart edge)) (c : Canvas) :
    (plotAll edge dots c).2 = true ↔
      c.2 = true ∨ ∃ p ∈ dots, ∃ x y, target edge p.1 p.2.1 = some (x, y) ∧ Display.pix c.1 x y = true ∧ p.2.2 = true := by
  induction dots generalizing c with
  | nil => simp [plotAll]
  | cons p dots ih =>
    have hrest := ih hd.of_cons (plot edge p.1 p.2.1 p.2.2 c)
    have hkeep : ∀ q ∈ dots, ∀ x y, target edge q.1 q.2.1 = some (x, y) →
        Display.pix (plot edge p.1 p.2.1 p.2.2 c).1 x y = Display.pix c.1 x y := by
      intro q hq x y h
      have hne : target edge p.1 p.2.1 ≠ some (x, y) := fun e => (List.rel_of_pairwise_cons hd hq) _ e h
      simp [plot_pix, hne]
    simp only [plotAll, List.foldl_cons] at hrest ⊢
    rw [hrest, plot_collision, or_assoc]
    refine or_congr Iff.rfl ⟨?_, ?_⟩
    · rintro (h | ⟨q, hq, x, y, h₁, h₂, h₃⟩)
      · exact ⟨p, by simp, h⟩
      · exact ⟨q, by simp [hq], x, y, h₁, (hkeep q hq x y h₁).symm.trans h₂, h₃⟩
    · rintro ⟨q, hq, x, y, h₁, h₂, h₃⟩
      rcases List.mem_cons.1 hq with rfl | hq
      · exact .inl ⟨x, y, h₁, h₂, h₃⟩
      · exact .inr ⟨q, hq, x, y, h₁, (hkeep q hq x y h₁).trans h₂, h₃⟩

/-- A whole draw: a pixel that some dot falls on. -/
theorem drawRows_pix_hit (edge : DrawEdge) (vx vy : Nat) (rows : List Byte) (c : Canvas) (hl : rows.length ≤ 15) {r b : Nat}
    (hr : r < rows.length) (hb : b < 8) {x : Fin 64} {y : Fin 32} (h : target edge (vx + b) (vy + r) = some (x, y)) :
    Display.pix (drawRows edge vx vy rows c).1 x y = (Display.pix c.1 x y ^^ spriteBit rows[r] b) := by
  rw [drawRows_eq_plotAll]
  exact plotAll_pix_hit edge (spriteDots_apart edge vx vy rows hl) ((mem_spriteDots ..).2 ⟨r, b, hr, hb, rfl⟩) c h

/-- A whole draw: a pixel that no dot falls on. -/
theorem drawRows_pix_miss (edge : DrawEdge) (vx vy : Nat) (rows : List Byte) (c : Canvas) {x : Fin 64} {y : Fin 32}
    (h : ∀ r b, r < rows.length → b < 8 → target edge (vx + b) (vy + r) ≠ some (x, y)) :
    Display.pix (drawRows edge vx vy rows c).1 x y = Display.pix c.1 x y := by
  rw [drawRows_eq_plotAll]
  refine plotAll_pix_miss _ _ _ _ _ fun p hp => ?_
  obtain ⟨r, b, hr, hb, rfl⟩ := (mem_spriteDots ..).1 hp
  exact h r b hr hb

/-- A whole draw: when it collides. -/
theorem drawRows_collision (edge : DrawEdge) (vx vy : Nat) (rows : List Byte) (c : Canvas) (hl : rows.length ≤ 15) :
    (drawRows edge vx vy rows c).2 = true ↔ c.2 = true ∨ ∃ r b, ∃ h : r < rows.length, b < 8 ∧ ∃ x y,
      target edge (vx + b) (vy + r) = some (x, y) ∧ Display.pix c.1 x y = true ∧ spriteBit rows[r] b = true := by
  rw [drawRows_eq_plotAll, plotAll_collision edge (spriteDots_apart edge vx vy rows hl)]
  refine or_congr Iff.rfl ⟨?_, ?_⟩
  · rintro ⟨p, hp, x, y, h⟩
    obtain ⟨r, b, hr, hb, rfl⟩ := (mem_spriteDots ..).1 hp
    exact ⟨r, b, hr, hb, x, y, h⟩
  · rintro ⟨r, b, hr, hb, x, y, h⟩
    exact ⟨_, (mem_spriteDots ..).2 ⟨r, b, hr, hb, rfl⟩, x, y, h⟩

end Sys2Proof.Machine
end

