-- ==== Sys2Proof/Laws/Decode.lean ====
section
/-! SUPPORT. The fields and the formats of a word as numbers (30_encoding.md R71, R72), and the decoder by families. -/

namespace Sys2Proof

theorem wordOfBytes_toNat (hi lo : Byte) : (wordOfBytes hi lo).toNat = hi.toNat * 256 + lo.toNat := by
  have hlo := lo.isLt
  rw [show wordOfBytes hi lo = (hi ++ lo : BitVec (8 + 8)) from rfl, BitVec.toNat_append, ← Nat.shiftLeft_add_eq_or_of_lt hlo]
  simp [Nat.shiftLeft_eq]

theorem highByte_toNat (w : Word) : (highByte w).toNat = w.toNat / 256 := by
  have := w.isLt
  simp [highByte, Nat.shiftRight_eq_div_pow]
  omega

theorem lowByte_toNat (w : Word) : (lowByte w).toNat = w.toNat % 256 := by simp [lowByte]

@[simp] theorem wordOfBytes_high_low (w : Word) : wordOfBytes (highByte w) (lowByte w) = w := by
  apply BitVec.eq_of_toNat_eq
  rw [wordOfBytes_toNat, highByte_toNat, lowByte_toNat]
  omega

/-! ## Fields -/

theorem opField_toNat (w : Word) : (opField w).toNat = w.toNat / 4096 := by
  have := w.isLt
  simp [opField, Nat.shiftRight_eq_div_pow]
  omega

theorem xField_val (w : Word) : (xField w).val = w.toNat / 256 % 16 := by
  simp [xField, Nat.shiftRight_eq_div_pow]

theorem yField_val (w : Word) : (yField w).val = w.toNat / 16 % 16 := by
  simp [yField, Nat.shiftRight_eq_div_pow]

theorem nField_toNat (w : Word) : (nField w).toNat = w.toNat % 16 := by simp [nField]

theorem kkField_toNat (w : Word) : (kkField w).toNat = w.toNat % 256 := by simp [kkField]

theorem nnnField_toNat (w : Word) : (nnnField w).toNat = w.toNat % 4096 := by simp [nnnField]

/-! ## Formats -/

theorem formatA_toNat (op : Nibble) (nnn : Addr12) : (formatA op nnn).toNat = op.toNat * 4096 + nnn.toNat := by
  have h := nnn.isLt
  rw [show formatA op nnn = (op ++ nnn : BitVec (4 + 12)) from rfl, BitVec.toNat_append, ← Nat.shiftLeft_add_eq_or_of_lt h]
  simp [Nat.shiftLeft_eq]

theorem formatXK_toNat (op : Nibble) (x : RegIdx) (kk : Byte) :
    (formatXK op x kk).toNat = op.toNat * 4096 + x.val * 256 + kk.toNat := by
  have h := kk.isLt
  have hx : (BitVec.ofFin (w := 4) x).toNat < 2 ^ 4 := (BitVec.ofFin (w := 4) x).isLt
  rw [show formatXK op x kk = (op ++ BitVec.ofFin (w := 4) x ++ kk : BitVec (4 + 4 + 8)) from rfl, BitVec.toNat_append,
    BitVec.toNat_append, ← Nat.shiftLeft_add_eq_or_of_lt h, ← Nat.shiftLeft_add_eq_or_of_lt hx]
  simp only [Nat.shiftLeft_eq, BitVec.toNat_ofFin]
  omega

theorem formatXYN_toNat (op : Nibble) (x y : RegIdx) (n : Nibble) :
    (formatXYN op x y n).toNat = op.toNat * 4096 + x.val * 256 + y.val * 16 + n.toNat := by
  have h := n.isLt
  have hx : (BitVec.ofFin (w := 4) x).toNat < 2 ^ 4 := (BitVec.ofFin (w := 4) x).isLt
  have hy : (BitVec.ofFin (w := 4) y).toNat < 2 ^ 4 := (BitVec.ofFin (w := 4) y).isLt
  rw [show formatXYN op x y n = (op ++ BitVec.ofFin (w := 4) x ++ BitVec.ofFin (w := 4) y ++ n : BitVec (4 + 4 + 4 + 4)) from rfl,
    BitVec.toNat_append, BitVec.toNat_append, BitVec.toNat_append, ← Nat.shiftLeft_add_eq_or_of_lt h,
    ← Nat.shiftLeft_add_eq_or_of_lt hy, ← Nat.shiftLeft_add_eq_or_of_lt hx]
  simp only [Nat.shiftLeft_eq, BitVec.toNat_ofFin]
  omega

/-! ## The decoder by families (R74) -/

/-- A word of a family from 1 up is neither of the two literals. -/
theorem decode_family {w : Word} (h : w.toNat / 4096 ≠ 0) : decode w = decodeFamily w := by
  have h₁ : w ≠ 0x00E0 := fun e => by subst e; simp at h
  have h₂ : w ≠ 0x00EE := fun e => by subst e; simp at h
  simp only [decode, if_neg h₁, if_neg h₂]

/-- Family 0 (R75): the two literals, and unknown opcodes. -/
theorem decode_family_zero {w : Word} (h : w.toNat / 4096 = 0) :
    decode w = if w = 0x00E0 then .instr .cls else if w = 0x00EE then .instr .ret else .unknown w := by
  simp only [decode, decodeFamily, opField_toNat, h]

end Sys2Proof
end

