-- ==== Sys2Proof/Laws/Memory.lean ====
section
/-! SUPPORT. Memory: reading after writing, and the canonical form (20_memory.md; assumption log 7). -/

namespace Sys2Proof.Machine

@[simp] theorem memSize_eq : Config.memSize = 4096 := rfl

theorem valid_iff (a : Nat) : Valid a ↔ a < 4096 := Iff.rfl

@[simp] theorem Memory.byteAt_nil (a : Nat) : Memory.byteAt [] a = Config.memReset := rfl

@[simp] theorem Memory.wf_nil : Memory.wf [] = true := rfl

theorem Memory.wfFrom_cons_iff (lo a : Nat) (b : Byte) (m : Memory) :
    Memory.wfFrom lo ((a, b) :: m) = true ↔
      lo ≤ a ∧ Valid a ∧ b ≠ Config.memReset ∧ Memory.wfFrom (a + 1) m = true := by
  simp [Memory.wfFrom, and_assoc]

theorem Memory.wfFrom_mono {lo lo' : Nat} {m : Memory} (h : Memory.wfFrom lo m = true) (hle : lo' ≤ lo) :
    Memory.wfFrom lo' m = true := by
  cases m with
  | nil => rfl
  | cons c m =>
    obtain ⟨h₁, h₂⟩ := (Memory.wfFrom_cons_iff ..).1 h
    exact (Memory.wfFrom_cons_iff ..).2 ⟨hle.trans h₁, h₂⟩

/-- Below its first cell a canonical memory reads as the reset contents. -/
theorem Memory.byteAt_below {lo a : Nat} {m : Memory} (h : Memory.wfFrom lo m = true) (ha : a < lo) :
    Memory.byteAt m a = Config.memReset := by
  induction m generalizing lo with
  | nil => rfl
  | cons c m ih =>
    obtain ⟨h₁, -, -, h₄⟩ := (Memory.wfFrom_cons_iff ..).1 h
    have hne : c.1 ≠ a := by omega
    simp only [Memory.byteAt, if_neg hne]
    exact ih h₄ (by omega)

theorem Memory.wfFrom_consCell {lo a : Nat} {b : Byte} {m : Memory} (hlo : lo ≤ a) (ha : Valid a)
    (h : Memory.wfFrom (a + 1) m = true) : Memory.wfFrom lo (Memory.cons a b m) = true := by
  unfold Memory.cons
  split
  · exact Memory.wfFrom_mono h (by omega)
  · exact (Memory.wfFrom_cons_iff ..).2 ⟨hlo, ha, ‹_›, h⟩

/-- A cell put in front of a canonical memory above it. -/
theorem Memory.byteAt_consCell {a a' : Nat} {b : Byte} {m : Memory} (h : Memory.wfFrom (a + 1) m = true) :
    Memory.byteAt (Memory.cons a b m) a' = if a' = a then b else Memory.byteAt m a' := by
  unfold Memory.cons
  split
  · split
    · subst_vars; exact Memory.byteAt_below h (by omega)
    · rfl
  · simp [Memory.byteAt, eq_comm]

theorem Memory.wfFrom_store {lo a : Nat} {b : Byte} {m : Memory} (h : Memory.wfFrom lo m = true) (hlo : lo ≤ a)
    (ha : Valid a) : Memory.wfFrom lo (Memory.store m a b) = true := by
  induction m generalizing lo with
  | nil => exact Memory.wfFrom_consCell hlo ha rfl
  | cons c m ih =>
    obtain ⟨h₁, h₂, h₃, h₄⟩ := (Memory.wfFrom_cons_iff ..).1 h
    simp only [Memory.store]
    split
    · exact Memory.wfFrom_consCell hlo ha ((Memory.wfFrom_cons_iff ..).2 ⟨by omega, h₂, h₃, h₄⟩)
    · split
      · rename_i he; subst he; exact Memory.wfFrom_consCell hlo ha h₄
      · exact (Memory.wfFrom_cons_iff ..).2 ⟨h₁, h₂, h₃, ih h₄ (by omega)⟩

/-- A write keeps the canonical form. -/
theorem Memory.wf_store {a : Nat} {b : Byte} {m : Memory} (h : Memory.wf m = true) (ha : Valid a) :
    Memory.wf (Memory.store m a b) = true :=
  Memory.wfFrom_store h (Nat.zero_le a) ha

/-- A read after a write: the byte written, and every other byte as before. -/
theorem Memory.byteAt_store_from {lo a a' : Nat} {b : Byte} {m : Memory} (h : Memory.wfFrom lo m = true) (hlo : lo ≤ a) :
    Memory.byteAt (Memory.store m a b) a' = if a' = a then b else Memory.byteAt m a' := by
  induction m generalizing lo with
  | nil => exact Memory.byteAt_consCell rfl
  | cons c m ih =>
    obtain ⟨h₁, h₂, h₃, h₄⟩ := (Memory.wfFrom_cons_iff ..).1 h
    simp only [Memory.store]
    split
    · exact Memory.byteAt_consCell ((Memory.wfFrom_cons_iff ..).2 ⟨by omega, h₂, h₃, h₄⟩)
    · split
      · rename_i he
        subst he
        rw [Memory.byteAt_consCell h₄]
        simp only [Memory.byteAt]
        grind
      · simp only [Memory.byteAt]
        have := ih h₄ (by omega)
        grind

theorem Memory.byteAt_store {a a' : Nat} {b : Byte} {m : Memory} (h : Memory.wf m = true) :
    Memory.byteAt (Memory.store m a b) a' = if a' = a then b else Memory.byteAt m a' :=
  Memory.byteAt_store_from h (Nat.zero_le a)

/-- `MemWrite` to a valid address. -/
theorem State.memWrite_valid (s : State) {a : Nat} (b : Byte) (ha : Valid a) :
    s.memWrite a b = some { s with mem := s.mem.store a b } := if_pos ha

theorem State.memWrite_invalid (s : State) {a : Nat} (b : Byte) (ha : ¬ Valid a) : s.memWrite a b = none := if_neg ha

/-- Everything a `MemWrite` can do. -/
theorem State.memWrite_cases {s t : State} {a : Nat} {b : Byte} (h : s.memWrite a b = some t) :
    Valid a ∧ t = { s with mem := s.mem.store a b } := by
  unfold State.memWrite at h
  split at h
  · exact ⟨‹_›, by simpa using h.symm⟩
  · cases h

end Sys2Proof.Machine
end

