-- ==== Sys2Proof/Laws/State.lean ====
section
/-! SUPPORT. One lemma per field per update of State, so that no later proof unfolds a record update. -/

namespace Sys2Proof.Machine

variable (s : State)

/-! ### `State.advancePc` -/

@[simp] theorem State.advancePc_mem (k : Word) : (s.advancePc k).mem = s.mem := rfl
@[simp] theorem State.advancePc_v (k : Word) : (s.advancePc k).v = s.v := rfl
@[simp] theorem State.advancePc_i (k : Word) : (s.advancePc k).i = s.i := rfl
@[simp] theorem State.advancePc_pc (k : Word) : (s.advancePc k).pc = s.pc + k := rfl
@[simp] theorem State.advancePc_stack (k : Word) : (s.advancePc k).stack = s.stack := rfl
@[simp] theorem State.advancePc_disp (k : Word) : (s.advancePc k).disp = s.disp := rfl
@[simp] theorem State.advancePc_collisionC (k : Word) : (s.advancePc k).collisionC = s.collisionC := rfl
@[simp] theorem State.advancePc_events (k : Word) : (s.advancePc k).events = s.events := rfl
@[simp] theorem State.advancePc_rand (k : Word) : (s.advancePc k).rand = s.rand := rfl
@[simp] theorem State.advancePc_tick (k : Word) : (s.advancePc k).tick = s.tick := rfl

/-! ### `State.setPc` -/

@[simp] theorem State.setPc_mem (w : Word) : (s.setPc w).mem = s.mem := rfl
@[simp] theorem State.setPc_v (w : Word) : (s.setPc w).v = s.v := rfl
@[simp] theorem State.setPc_i (w : Word) : (s.setPc w).i = s.i := rfl
@[simp] theorem State.setPc_pc (w : Word) : (s.setPc w).pc = w := rfl
@[simp] theorem State.setPc_stack (w : Word) : (s.setPc w).stack = s.stack := rfl
@[simp] theorem State.setPc_disp (w : Word) : (s.setPc w).disp = s.disp := rfl
@[simp] theorem State.setPc_collisionC (w : Word) : (s.setPc w).collisionC = s.collisionC := rfl
@[simp] theorem State.setPc_events (w : Word) : (s.setPc w).events = s.events := rfl
@[simp] theorem State.setPc_rand (w : Word) : (s.setPc w).rand = s.rand := rfl
@[simp] theorem State.setPc_tick (w : Word) : (s.setPc w).tick = s.tick := rfl

/-! ### `State.beginStep` -/

@[simp] theorem State.beginStep_mem (r : Byte) : (s.beginStep r).mem = s.mem := rfl
@[simp] theorem State.beginStep_v (r : Byte) : (s.beginStep r).v = s.v := rfl
@[simp] theorem State.beginStep_i (r : Byte) : (s.beginStep r).i = s.i := rfl
@[simp] theorem State.beginStep_pc (r : Byte) : (s.beginStep r).pc = s.pc + 2 := rfl
@[simp] theorem State.beginStep_stack (r : Byte) : (s.beginStep r).stack = s.stack := rfl
@[simp] theorem State.beginStep_disp (r : Byte) : (s.beginStep r).disp = s.disp := rfl
@[simp] theorem State.beginStep_collisionC (r : Byte) : (s.beginStep r).collisionC = s.collisionC := rfl
@[simp] theorem State.beginStep_events (r : Byte) : (s.beginStep r).events = [] := rfl
@[simp] theorem State.beginStep_rand (r : Byte) : (s.beginStep r).rand = r := rfl
@[simp] theorem State.beginStep_tick (r : Byte) : (s.beginStep r).tick = s.tick + 1 := rfl

/-! ### `State.push` -/

@[simp] theorem State.push_mem (w : Word) : (s.push w).mem = s.mem := rfl
@[simp] theorem State.push_v (w : Word) : (s.push w).v = s.v := rfl
@[simp] theorem State.push_i (w : Word) : (s.push w).i = s.i := rfl
@[simp] theorem State.push_pc (w : Word) : (s.push w).pc = s.pc := rfl
@[simp] theorem State.push_stack (w : Word) : (s.push w).stack = s.stack ++ [w] := rfl
@[simp] theorem State.push_disp (w : Word) : (s.push w).disp = s.disp := rfl
@[simp] theorem State.push_collisionC (w : Word) : (s.push w).collisionC = s.collisionC := rfl
@[simp] theorem State.push_events (w : Word) : (s.push w).events = s.events := rfl
@[simp] theorem State.push_rand (w : Word) : (s.push w).rand = s.rand := rfl
@[simp] theorem State.push_tick (w : Word) : (s.push w).tick = s.tick := rfl

/-! ### `State.report` -/

@[simp] theorem State.report_mem (e : Event) : (s.report e).mem = s.mem := rfl
@[simp] theorem State.report_v (e : Event) : (s.report e).v = s.v := rfl
@[simp] theorem State.report_i (e : Event) : (s.report e).i = s.i := rfl
@[simp] theorem State.report_pc (e : Event) : (s.report e).pc = s.pc := rfl
@[simp] theorem State.report_stack (e : Event) : (s.report e).stack = s.stack := rfl
@[simp] theorem State.report_disp (e : Event) : (s.report e).disp = s.disp := rfl
@[simp] theorem State.report_collisionC (e : Event) : (s.report e).collisionC = s.collisionC := rfl
@[simp] theorem State.report_events (e : Event) : (s.report e).events = s.events ++ [e] := rfl
@[simp] theorem State.report_rand (e : Event) : (s.report e).rand = s.rand := rfl
@[simp] theorem State.report_tick (e : Event) : (s.report e).tick = s.tick := rfl

/-! ### `State.setV` -/

@[simp] theorem State.setV_mem (x : RegIdx) (b : Byte) : (s.setV x b).mem = s.mem := rfl
@[simp] theorem State.setV_v (x : RegIdx) (b : Byte) : (s.setV x b).v = s.v.set x b := rfl
@[simp] theorem State.setV_i (x : RegIdx) (b : Byte) : (s.setV x b).i = s.i := rfl
@[simp] theorem State.setV_pc (x : RegIdx) (b : Byte) : (s.setV x b).pc = s.pc := rfl
@[simp] theorem State.setV_stack (x : RegIdx) (b : Byte) : (s.setV x b).stack = s.stack := rfl
@[simp] theorem State.setV_disp (x : RegIdx) (b : Byte) : (s.setV x b).disp = s.disp := rfl
@[simp] theorem State.setV_collisionC (x : RegIdx) (b : Byte) : (s.setV x b).collisionC = s.collisionC := rfl
@[simp] theorem State.setV_events (x : RegIdx) (b : Byte) : (s.setV x b).events = s.events := rfl
@[simp] theorem State.setV_rand (x : RegIdx) (b : Byte) : (s.setV x b).rand = s.rand := rfl
@[simp] theorem State.setV_tick (x : RegIdx) (b : Byte) : (s.setV x b).tick = s.tick := rfl

/-! ### `State.setI` -/

@[simp] theorem State.setI_mem (w : Word) : (s.setI w).mem = s.mem := rfl
@[simp] theorem State.setI_v (w : Word) : (s.setI w).v = s.v := rfl
@[simp] theorem State.setI_i (w : Word) : (s.setI w).i = w := rfl
@[simp] theorem State.setI_pc (w : Word) : (s.setI w).pc = s.pc := rfl
@[simp] theorem State.setI_stack (w : Word) : (s.setI w).stack = s.stack := rfl
@[simp] theorem State.setI_disp (w : Word) : (s.setI w).disp = s.disp := rfl
@[simp] theorem State.setI_collisionC (w : Word) : (s.setI w).collisionC = s.collisionC := rfl
@[simp] theorem State.setI_events (w : Word) : (s.setI w).events = s.events := rfl
@[simp] theorem State.setI_rand (w : Word) : (s.setI w).rand = s.rand := rfl
@[simp] theorem State.setI_tick (w : Word) : (s.setI w).tick = s.tick := rfl

/-! ### Reading registers -/

@[simp] theorem State.getV_setV_same (x : RegIdx) (b : Byte) : (s.setV x b).getV x = b := by
  simp [State.getV, Vector.get_eq_getElem]

theorem State.getV_setV_ne (x y : RegIdx) (b : Byte) (h : y ≠ x) : (s.setV x b).getV y = s.getV y := by
  have hxy : x.val ≠ y.val := fun e => h (Fin.ext e.symm)
  simp [State.getV, Vector.get_eq_getElem, hxy]

theorem State.getV_setV (x y : RegIdx) (b : Byte) : (s.setV x b).getV y = if y = x then b else s.getV y := by
  by_cases h : y = x
  · subst h; simp
  · simp [State.getV_setV_ne, h]

@[simp] theorem State.getV_advancePc (k : Word) (x : RegIdx) : (s.advancePc k).getV x = s.getV x := rfl
@[simp] theorem State.getV_setPc (w : Word) (x : RegIdx) : (s.setPc w).getV x = s.getV x := rfl
@[simp] theorem State.getV_beginStep (r : Byte) (x : RegIdx) : (s.beginStep r).getV x = s.getV x := rfl

@[simp] theorem State.fetchAddr_beginStep (r : Byte) : (s.beginStep r).fetchAddr = s.pc := by
  simp [State.fetchAddr, State.beginStep]

end Sys2Proof.Machine
end

