-- ==== Sys2Proof/Laws/Ops.lean ====
section
/-! SUPPORT. What each shared operation can do, said once. -/

namespace Sys2Proof.Machine

/-! ## Reading Memory -/

theorem State.memRead_valid (s : State) {a : Nat} (A : Word) (ph : Phase) (ha : Valid a) :
    s.memRead a A ph = .ok (s.mem.byteAt a) := if_pos ha

theorem State.memRead_invalid (s : State) {a : Nat} (A : Word) (ph : Phase) (ha : ¬ Valid a) :
    s.memRead a A ph = .error (.addressingViolation a A ph) := if_neg ha

/-! ## The fetch -/

theorem State.fetchWord_valid (s : State) (h : Valid (s.pc.toNat + 1)) :
    s.fetchWord = .ok (wordOfBytes (s.mem.byteAt s.pc.toNat) (s.mem.byteAt (s.pc.toNat + 1))) := by
  have h₀ : Valid s.pc.toNat := by simp only [Valid] at *; omega
  simp [State.fetchWord, State.memRead_valid _ _ _ h₀, State.memRead_valid _ _ _ h]

theorem State.fetchWord_last (s : State) (h : s.pc.toNat + 1 = Config.memSize) :
    s.fetchWord = .error (.addressingViolation (s.pc.toNat + 1) s.pc .fetch) := by
  have h₀ : Valid s.pc.toNat := by simp only [Valid] at *; omega
  have h₁ : ¬ Valid (s.pc.toNat + 1) := by simp only [Valid] at *; omega
  simp [State.fetchWord, State.memRead_valid _ _ _ h₀, State.memRead_invalid _ _ _ h₁]

theorem State.fetchWord_outside (s : State) (h : ¬ Valid s.pc.toNat) :
    s.fetchWord = .error (.addressingViolation s.pc.toNat s.pc .fetch) := by
  simp [State.fetchWord, State.memRead_invalid _ _ _ h]

/-- The three things a fetch can answer. -/
theorem State.fetchWord_cases (s : State) :
    (Valid (s.pc.toNat + 1) ∧
      s.fetchWord = .ok (wordOfBytes (s.mem.byteAt s.pc.toNat) (s.mem.byteAt (s.pc.toNat + 1)))) ∨
    (s.pc.toNat + 1 = Config.memSize ∧ s.fetchWord = .error (.addressingViolation (s.pc.toNat + 1) s.pc .fetch)) ∨
    (¬ Valid s.pc.toNat ∧ s.fetchWord = .error (.addressingViolation s.pc.toNat s.pc .fetch)) := by
  by_cases h₁ : Valid (s.pc.toNat + 1)
  · exact .inl ⟨h₁, s.fetchWord_valid h₁⟩
  · by_cases h₀ : Valid s.pc.toNat
    · have h : s.pc.toNat + 1 = Config.memSize := by simp only [Valid] at *; omega
      exact .inr (.inl ⟨h, s.fetchWord_last h⟩)
    · exact .inr (.inr ⟨h₀, s.fetchWord_outside h₀⟩)

/-! ## The Call Stack -/

theorem State.pop_empty {s : State} (h : s.stack = []) : s.pop = none := by simp [State.pop, h]

theorem State.pop_concat {s : State} {st : List Word} {top : Word} (h : s.stack = st ++ [top]) :
    s.pop = some (top, { s with stack := st }) := by simp [State.pop, h]

/-- Everything a `Pop` can answer. -/
theorem State.pop_cases (s : State) :
    (s.stack = [] ∧ s.pop = none) ∨ ∃ st top, s.stack = st ++ [top] ∧ s.pop = some (top, { s with stack := st }) := by
  rcases List.eq_nil_or_concat s.stack with h | ⟨st, top, h⟩
  · exact .inl ⟨h, State.pop_empty h⟩
  · rw [List.concat_eq_append] at h
    exact .inr ⟨st, top, h, State.pop_concat h⟩

theorem stackFull_bounded (p : Params) (s : State) {capacity : Nat} (h : p.stackCapacity = some capacity) :
    stackFull p s = true ↔ s.stack.length = capacity := by simp [stackFull, h]

theorem stackFull_unbounded (p : Params) (s : State) (h : p.stackCapacity = none) : stackFull p s = false := by
  simp [stackFull, h]

theorem stackFull_params (s : State) : stackFull params s = true ↔ s.stack.length = 16 :=
  stackFull_bounded params s rfl

/-! ## Skips -/

theorem State.skipIf_eq (s : State) (c : Bool) : s.skipIf c = if c then { s with pc := s.pc + 2 } else s := rfl

/-! ## Sprite rows -/

/-- Every row address is valid: the bytes, in order. -/
theorem State.readRows_valid (s : State) (A : Word) (addr n : Nat) (h : n = 0 ∨ addr + n ≤ Config.memSize) :
    s.readRows A addr n = .ok ((List.range n).map fun r => s.mem.byteAt (addr + r)) := by
  induction n generalizing addr with
  | zero => rfl
  | succ n ih =>
    have hv : Valid addr := by simp only [Valid]; omega
    have ih' := ih (addr + 1) (by omega)
    simp [State.readRows, State.memRead_valid _ _ _ hv, ih', List.range_succ_eq_map, Function.comp_def]
    intro a _
    congr 1
    omega

/-- Some row address is not valid: the violation names the least. -/
theorem State.readRows_invalid (s : State) (A : Word) (addr n r : Nat) (hr : r < n) (hbad : ¬ Valid (addr + r))
    (hleast : ∀ q, q < r → Valid (addr + q)) :
    s.readRows A addr n = .error (.addressingViolation (addr + r) A .draw) := by
  induction n generalizing addr r with
  | zero => omega
  | succ n ih =>
    cases r with
    | zero =>
      have hb : ¬ Valid addr := hbad
      simp [State.readRows, State.memRead_invalid _ _ _ hb]
    | succ r =>
      have h₀ : Valid addr := hleast 0 (by omega)
      have hb' : ¬ Valid (addr + 1 + r) := by simp only [Valid] at *; omega
      have hl' : ∀ q, q < r → Valid (addr + 1 + q) := fun q hq => by
        have := hleast (q + 1) (by omega)
        simp only [Valid] at *; omega
      have := ih (addr + 1) r (by omega) hb' hl'
      simp [State.readRows, State.memRead_valid _ _ _ h₀, this]
      omega

/-! ## The collision flag -/

theorem State.setCollision_vf (p : Params) (s : State) (c : Bool) (h : p.collisionStorage = .vf) :
    State.setCollision p s c = s.setV 0xF (collisionByte c) := by simp [State.setCollision, h]

theorem State.setCollision_separate (p : Params) (s : State) (c : Bool) (h : p.collisionStorage = .separate) :
    State.setCollision p s c = { s with collisionC := c } := by simp [State.setCollision, h]

end Sys2Proof.Machine
end

