-- ==== Sys2Proof/Laws/Step.lean ====
section
/-! SUPPORT. What each meaning answers, and what a step is, as equations to rewrite with; every case of each is named once. -/

namespace Sys2Proof.Machine

/-! ## The step -/

theorem stepWith_of_fetch (rand : Byte) {s : State} {w : Word} (h : s.fetchWord = .ok w) :
    stepWith rand s = execDecoded (decode w) (s.beginStep rand) := by simp [stepWith, h]

theorem stepWith_of_fetch_error (rand : Byte) {s : State} {f : Fault} (h : s.fetchWord = .error f) :
    stepWith rand s = .fault f := by simp [stepWith, h, raise]

/-- Everything a step can be: a fetch fault, or the operation of the word at `pc`. -/
theorem stepWith_cases (rand : Byte) (s : State) :
    (∃ f, s.fetchWord = .error f ∧ stepWith rand s = .fault f) ∨
    (∃ w, s.fetchWord = .ok w ∧ stepWith rand s = execDecoded (decode w) (s.beginStep rand)) := by
  cases h : s.fetchWord with
  | error f => exact .inl ⟨f, rfl, stepWith_of_fetch_error rand h⟩
  | ok w => exact .inr ⟨w, rfl, stepWith_of_fetch rand h⟩

theorem step_eq_stepWith (s : State) : step s = stepWith (Config.randByte s.tick) s := rfl

/-! ## The meanings that can do more than one thing -/

/-- `RET`: the two cases of 41_control_flow.md R120. -/
theorem execRet_cases (s : State) :
    (s.stack = [] ∧ execRet s = .next (s.report (.emptyStackReturn s.fetchAddr))) ∨
    ∃ st top, s.stack = st ++ [top] ∧ execRet s = .next { s with stack := st, pc := top } := by
  rcases s.pop_cases with ⟨h, hp⟩ | ⟨st, top, h, hp⟩
  · exact .inl ⟨h, by simp [execRet, hp]⟩
  · exact .inr ⟨st, top, h, by simp [execRet, hp, State.setPc]⟩

/-- `CALL`: the two cases of R122. -/
theorem execCall_cases (nnn : Addr12) (s : State) :
    (s.stack.length = 16 ∧ execCall nnn s = .fault (.stackOverflow s.fetchAddr nnn)) ∨
    (s.stack.length ≠ 16 ∧ execCall nnn s = .next { s with stack := s.stack ++ [s.pc], pc := zext16 nnn }) := by
  by_cases h : s.stack.length = 16
  · exact .inl ⟨h, by simp [execCall, callWith, (stackFull_params s).2 h, raise]⟩
  · have hf : stackFull params s ≠ true := fun e => h ((stackFull_params s).1 e)
    exact .inr ⟨h, by simp [execCall, callWith, hf, State.push, State.setPc]⟩

/-- `DRW` whose rows are all valid, for any parameters. -/
theorem drwWith_valid (p : Params) (x y : RegIdx) (n : Nibble) (s : State)
    (h : n.toNat = 0 ∨ s.i.toNat + n.toNat ≤ Config.memSize) :
    drwWith p x y n s =
      let rows := (List.range n.toNat).map fun r => s.mem.byteAt (s.i.toNat + r)
      let canvas := drawRows p.drawEdge (s.getV x).toNat (s.getV y).toNat rows (s.disp, false)
      .next ((State.setCollision p { s with disp := canvas.1 } canvas.2).advancePc drawExtraAdvance) := by
  simp [drwWith, State.readRows_valid s s.fetchAddr s.i.toNat n.toNat h]

/-- `DRW` with a row outside Memory faults at the least such address (43_display.md R162). -/
theorem drwWith_invalid (p : Params) (x y : RegIdx) (n : Nibble) (s : State) (r : Nat) (hr : r < n.toNat)
    (hbad : ¬ Valid (s.i.toNat + r)) (hleast : ∀ q, q < r → Valid (s.i.toNat + q)) :
    drwWith p x y n s = .fault (.addressingViolation (s.i.toNat + r) s.fetchAddr .draw) := by
  simp [drwWith, State.readRows_invalid s s.fetchAddr s.i.toNat n.toNat r hr hbad hleast, raise]

/-- Every `DRW` is one of these two. -/
theorem drw_rows_cases (i n : Nat) :
    (n = 0 ∨ i + n ≤ Config.memSize) ∨
    ∃ r, r < n ∧ ¬ Valid (i + r) ∧ ∀ q, q < r → Valid (i + q) := by
  by_cases h : n = 0 ∨ i + n ≤ Config.memSize
  · exact .inl h
  · exact .inr ⟨Config.memSize - i, by omega, by simp only [Valid]; omega, fun q hq => by simp only [Valid]; omega⟩

end Sys2Proof.Machine
end

