-- ==== Sys2Proof/Laws/Inversion.lean ====
section
/-! SUPPORT. Said once: every way an executed operation can answer a next state, guards included. An invariant is a case analysis over
`Effect`. -/

namespace Sys2Proof.Machine

/-- `Effect s d t`: from the fetch-advanced state `s` the operation `d` can leave `t`. -/
inductive Effect (s : State) : Decoded → State → Prop
  | cls : Effect s (.instr .cls) { s with disp := Display.clear }
  | retEmpty (h : s.stack = []) : Effect s (.instr .ret) (s.report (.emptyStackReturn s.fetchAddr))
  | ret (st : List Word) (top : Word) (h : s.stack = st ++ [top]) : Effect s (.instr .ret) { s with stack := st, pc := top }
  | jp (nnn : Addr12) : Effect s (.instr (.jp nnn)) (s.setPc (zext16 nnn))
  | call (nnn : Addr12) (h : s.stack.length ≠ 16) :
      Effect s (.instr (.call nnn)) { s with stack := s.stack ++ [s.pc], pc := zext16 nnn }
  | se (x : RegIdx) (kk : Byte) : Effect s (.instr (.se x kk)) (s.skipIf (s.getV x == kk))
  | sne (x : RegIdx) (kk : Byte) : Effect s (.instr (.sne x kk)) (s.skipIf (s.getV x != kk))
  | ld (x : RegIdx) (kk : Byte) : Effect s (.instr (.ld x kk)) (s.setV x kk)
  | add (x : RegIdx) (kk : Byte) : Effect s (.instr (.add x kk)) (s.setV x (s.getV x + kk))
  | sneR (x y : RegIdx) :
      Effect s (.instr (.sneR x y)) (s.advancePc (if s.getV x ≠ s.getV y then 2 else params.sneREqExtra))
  | ldI (nnn : Addr12) : Effect s (.instr (.ldI nnn)) (s.setI (zext16 nnn))
  | rnd (x : RegIdx) (kk : Byte) : Effect s (.instr (.rnd x kk)) (s.setV x (s.rand &&& kk))
  | drw (x y : RegIdx) (n : Nibble) (canvas : Canvas) (h : n.toNat = 0 ∨ s.i.toNat + n.toNat ≤ Config.memSize)
      (hc : canvas = drawRows params.drawEdge (s.getV x).toNat (s.getV y).toNat
        ((List.range n.toNat).map fun r => s.mem.byteAt (s.i.toNat + r)) (s.disp, false)) :
      Effect s (.instr (.drw x y n))
        ((State.setV { s with disp := canvas.1 } 0xF (collisionByte canvas.2)).advancePc drawExtraAdvance)
  | unknown (w : Word) : Effect s (.unknown w) (s.report (.unknownOpcode w s.fetchAddr))

theorem effect_of_execDecoded {s t : State} {d : Decoded} (h : execDecoded d s = .next t) : Effect s d t := by
  cases d with
  | unknown w =>
    cases h
    exact .unknown w
  | instr i =>
    simp only [execDecoded] at h
    cases i with
    | cls => cases h; exact .cls
    | ret =>
      simp only [exec] at h
      rcases execRet_cases s with ⟨hs, e⟩ | ⟨st, top, hs, e⟩ <;> rw [e] at h <;> cases h
      · exact .retEmpty hs
      · exact .ret st top hs
    | jp nnn => cases h; exact .jp nnn
    | call nnn =>
      simp only [exec] at h
      rcases execCall_cases nnn s with ⟨hs, e⟩ | ⟨hs, e⟩ <;> rw [e] at h <;> cases h
      exact .call nnn hs
    | se x kk => cases h; exact .se x kk
    | sne x kk => cases h; exact .sne x kk
    | ld x kk => cases h; exact .ld x kk
    | add x kk => cases h; exact .add x kk
    | sneR x y => cases h; exact .sneR x y
    | ldI nnn => cases h; exact .ldI nnn
    | rnd x kk => cases h; exact .rnd x kk
    | drw x y n =>
      simp only [exec, execDrw] at h
      rcases drw_rows_cases s.i.toNat n.toNat with hv | ⟨r, hr, hb, hl⟩
      · rw [drwWith_valid params x y n s hv] at h
        cases h
        exact .drw x y n _ hv rfl
      · rw [drwWith_invalid params x y n s r hr hb hl] at h
        cases h

/-- A step that answers a next state fetched a word and ran its operation. -/
theorem stepWith_next {rand : Byte} {s t : State} (h : stepWith rand s = .next t) :
    ∃ w, s.fetchWord = .ok w ∧ Effect (s.beginStep rand) (decode w) t := by
  rcases stepWith_cases rand s with ⟨f, -, e⟩ | ⟨w, hw, e⟩
  · rw [e] at h
    cases h
  · exact ⟨w, hw, effect_of_execDecoded (e.symm.trans h)⟩

end Sys2Proof.Machine
end

