-- ==== Sys2Proof/Laws/WellFormed.lean ====
section
/-! SUPPORT. The operand checks (30_encoding.md R79). -/

namespace Sys2Proof

@[simp] theorem checkReg_val (x : RegIdx) : checkReg x.val = .ok x := by simp [checkReg]

@[simp] theorem checkByte_toNat (b : Byte) : checkByte b.toNat = .ok b := by
  have := b.isLt
  simp [checkByte]; omega

@[simp] theorem checkAddr_toNat (a : Addr12) : checkAddr a.toNat = .ok a := by
  have := a.isLt
  simp [checkAddr]; omega

@[simp] theorem checkNibble_toNat (n : Nibble) : checkNibble n.toNat = .ok n := by
  have := n.isLt
  simp [checkNibble]; omega

end Sys2Proof
end

