-- ==== Sys2Proof/Laws/PerInstr.lean ====
section
/-! SUPPORT. Facts about every instruction as syntax, one lemma per constructor. -/

namespace Sys2Proof.Laws

/-- An instruction, written with plain numbers, passes its operand checks as itself (30_encoding.md R79). -/
def SourceCheck.Statement (i : Instr) : Prop := i.source.check = .ok i

theorem SourceCheck.cls : SourceCheck.Statement .cls := rfl
theorem SourceCheck.ret : SourceCheck.Statement .ret := rfl
theorem SourceCheck.jp (nnn : Addr12) : SourceCheck.Statement (.jp nnn) := by simp [Statement, Instr.source, Source.check, checkA]
theorem SourceCheck.call (nnn : Addr12) : SourceCheck.Statement (.call nnn) := by simp [Statement, Instr.source, Source.check, checkA]
theorem SourceCheck.se (x : RegIdx) (kk : Byte) : SourceCheck.Statement (.se x kk) := by
  simp [Statement, Instr.source, Source.check, checkXK]
theorem SourceCheck.sne (x : RegIdx) (kk : Byte) : SourceCheck.Statement (.sne x kk) := by
  simp [Statement, Instr.source, Source.check, checkXK]
theorem SourceCheck.ld (x : RegIdx) (kk : Byte) : SourceCheck.Statement (.ld x kk) := by
  simp [Statement, Instr.source, Source.check, checkXK]
theorem SourceCheck.add (x : RegIdx) (kk : Byte) : SourceCheck.Statement (.add x kk) := by
  simp [Statement, Instr.source, Source.check, checkXK]
theorem SourceCheck.sneR (x y : RegIdx) : SourceCheck.Statement (.sneR x y) := by
  simp [Statement, Instr.source, Source.check, checkXY]
theorem SourceCheck.ldI (nnn : Addr12) : SourceCheck.Statement (.ldI nnn) := by simp [Statement, Instr.source, Source.check, checkA]
theorem SourceCheck.rnd (x : RegIdx) (kk : Byte) : SourceCheck.Statement (.rnd x kk) := by
  simp [Statement, Instr.source, Source.check, checkXK]
theorem SourceCheck.drw (x y : RegIdx) (n : Nibble) : SourceCheck.Statement (.drw x y n) := by
  simp [Statement, Instr.source, Source.check, checkXY]

end Sys2Proof.Laws
end

