-- ==== Sys2Proof/Tests/Slice0.lean ====
section
/-! SUPPORT. Tests with results from the spec (95_test_vectors.md, cited by vector), the operand checks' smoke test, and for every statement
with hypotheses a state and operands that meet them (`witness_…`). -/

namespace Sys2Proof.Tests

open Sys2Proof.Machine Sys2Proof.Statements

set_option maxRecDepth 10000

/-- A newly constructed instance with `pc` here and these bytes loaded from `pc` up. -/
def prog (pc : Word) (bytes : List Byte) : State := loadAll (placeAt pc.toNat bytes) { State.reset with pc := pc }

/-- What a step with this random byte leaves of one piece of state. -/
def after {α : Type} (rand : Byte) (s : State) (f : State → α) : Option α := (nextState? (stepWith rand s)).map f

/-- The instance of 95_test_vectors.md DV2: at `A` the word `D011`, `V0 = V1 = 0`, `I = 0x300`, one sprite byte. -/
def drawing (bytes : List Byte) (sprite : Byte) : State :=
  (loadPort 0x300 sprite { prog 0x200 bytes with i := 0x300 }).1

/-! ## Operand checks (30_encoding.md R79): each refuses an operand one above its range -/

theorem test_register_check : (Source.ld 16 0).check = .error (.register 16) ∧ (Source.ld 16 0).wellFormed = false := by decide
theorem test_second_register_check : (Source.sneR 0 16).check = .error (.register 16) := by decide
theorem test_byte_check : (Source.add 0 256).check = .error (.byte 256) ∧ (Source.add 0 256).wellFormed = false := by decide
theorem test_address_check : (Source.jp 0x1000).check = .error (.address 0x1000) ∧ (Source.jp 0x1000).wellFormed = false := by decide
theorem test_nibble_check : (Source.drw 0 0 16).check = .error (.nibble 16) ∧ (Source.drw 0 0 16).wellFormed = false := by decide
theorem test_in_range : (Source.drw 15 15 15).check = .ok (.drw 0xF 0xF 15) ∧ (Source.jp 0xFFF).check = .ok (.jp 0xFFF) := by decide

/-! ## Decoding: words written out bit by bit from the formats of R72 -/

theorem test_decode_cls : decode 0b0000000011100000 = .instr .cls := by decide
theorem test_decode_ret : decode 0b0000000011101110 = .instr .ret := by decide
theorem test_decode_jp : decode 0b0001101010111100 = .instr (.jp 0xABC) := by decide
theorem test_decode_call : decode 0b0010001100000001 = .instr (.call 0x301) := by decide
theorem test_decode_se : decode 0b0011001101000010 = .instr (.se 3 0x42) := by decide
theorem test_decode_sne : decode 0b0100001101000010 = .instr (.sne 3 0x42) := by decide
theorem test_decode_ld : decode 0b0110101001111111 = .instr (.ld 0xA 0x7F) := by decide
theorem test_decode_add : decode 0b0111101011111111 = .instr (.add 0xA 0xFF) := by decide
theorem test_decode_sneR : decode 0b1001000100100000 = .instr (.sneR 1 2) := by decide
theorem test_decode_sneR_low_digit : decode 0b1001000100100001 = .unknown 0x9121 := by decide
theorem test_decode_ldI : decode 0b1010000100100011 = .instr (.ldI 0x123) := by decide
theorem test_decode_rnd : decode 0b1100001100001111 = .instr (.rnd 3 0x0F) := by decide
theorem test_decode_drw : decode 0b1101000100101111 = .instr (.drw 1 2 15) := by decide
/-- S2: the fields of 0xD12F. -/
theorem test_fields : opField 0xD12F = 0xD ∧ xField 0xD12F = 1 ∧ yField 0xD12F = 2 ∧ nField 0xD12F = 0xF ∧ kkField 0xD12F = 0x2F ∧
    nnnField 0xD12F = 0x12F := by decide
theorem test_decodeTableWord : decodeTableWord 16 0x6A7F = some (.ld 0xA 0x7F) ∧ decodeTableWord 16 0x8014 = none := by decide
theorem test_withFetchWord : after 0 (State.reset.withFetchWord 16 0x6A7F) (·.getV 0xA) = some 0x7F := by decide

/-! ## The step -/

/-- FV2: an odd `pc`. -/
theorem test_fetch_odd : after 0 (prog 0x201 [0x12, 0x34]) (·.pc) = some 0x0234 := by decide
/-- FV3: the last valid fetch. -/
theorem test_fetch_last : after 0 (prog 0xFFE [0x00, 0x00]) (fun t => (t.pc, t.events)) = some (0x1000, [.unknownOpcode 0x0000 0xFFE]) := by
  decide
/-- FV4 and FV5. -/
theorem test_fetch_faults :
    fault? (stepWith 0 (prog 0xFFF [])) = some (.addressingViolation 0x1000 0xFFF .fetch) ∧
    fault? (stepWith 0 (prog 0x1000 [])) = some (.addressingViolation 0x1000 0x1000 .fetch) := by decide
/-- S13. -/
theorem test_unknown : after 0 (prog 0x200 [0x80, 0x14]) (fun t => (t.pc, t.events)) = some (0x202, [.unknownOpcode 0x8014 0x200]) := by
  decide
theorem test_codes : Event.code (.unknownOpcode 0 0) = 0x01 ∧ Event.code (.emptyStackReturn 0) = 0x02 ∧
    Fault.code (.addressingViolation 0 0 .draw) = 0x81 ∧ Fault.code (.stackOverflow 0 0) = 0x82 := by decide

/-! ## Control flow -/

/-- CV5. -/
theorem test_ret : after 0 { prog 0x300 [0x00, 0xEE] with stack := [0x101, 0x202] } (fun t => (t.pc, t.stack, t.events)) =
    some (0x202, [0x101], []) := by decide
/-- CV6. -/
theorem test_ret_empty : after 0 (prog 0x300 [0x00, 0xEE]) (fun t => (t.pc, t.events)) = some (0x302, [.emptyStackReturn 0x300]) := by
  decide
/-- CV1. -/
theorem test_jp : after 0 (prog 0x200 [0x1A, 0xBC]) (·.pc) = some 0x0ABC := by decide
/-- CV7. -/
theorem test_call : after 0 { prog 0x400 [0x25, 0x00] with stack := List.replicate 15 0 } (fun t => (t.pc, t.stack.length, t.stack.getLast?)) =
    some (0x0500, 16, some 0x402) := by decide
/-- CV8. -/
theorem test_call_overflow : fault? (stepWith 0 { prog 0x400 [0x25, 0x00] with stack := List.replicate 16 0 }) =
    some (.stackOverflow 0x400 0x500) := by decide
/-- CV10 and CV11. -/
theorem test_se : after 0 ((prog 0x200 [0x33, 0x42]).setV 3 0x42) (·.pc) = some 0x204 ∧
    after 0 ((prog 0x200 [0x33, 0x42]).setV 3 0x41) (·.pc) = some 0x202 := by decide
/-- CV12 and CV13. -/
theorem test_sne : after 0 (prog 0x200 [0x43, 0x42]) (·.pc) = some 0x204 ∧
    after 0 ((prog 0x200 [0x43, 0x42]).setV 3 0x42) (·.pc) = some 0x202 := by decide
/-- CV15, and CV16 with both values of `SNE_R_EQ_EXTRA`. -/
theorem test_sneR : after 0 (((prog 0x200 [0x91, 0x20]).setV 1 5).setV 2 6) (·.pc) = some 0x204 ∧
    after 0 (((prog 0x200 [0x91, 0x20]).setV 1 5).setV 2 5) (·.pc) = some 0x202 ∧
    (nextState? (sneRWith { params with sneREqExtra := 2 } 1 2 { State.reset with pc := 0x202 })).map (·.pc) = some 0x204 := by decide

/-! ## Register operations -/

/-- RV1 and RV2. -/
theorem test_ld : after 0 ((prog 0x200 [0x6A, 0x7F]).setV 0xA 0x13) (·.getV 0xA) = some 0x7F ∧
    after 0 ((prog 0x200 [0x6F, 0x07]).setV 0xF 1) (fun t => (t.getV 0xF, t.pc)) = some (0x07, 0x202) := by decide
/-- RV3 and RV5. -/
theorem test_add : after 0 ((prog 0x200 [0x73, 0x02]).setV 3 0xFF) (fun t => (t.getV 3, t.getV 0xF)) = some (0x01, 0x00) ∧
    after 0 ((prog 0x200 [0x7F, 0x01]).setV 0xF 0xFF) (·.getV 0xF) = some 0x00 := by decide
/-- RV8. -/
theorem test_ldI : after 0 { prog 0x200 [0xAF, 0xFF] with i := 0x0123 } (fun t => (t.i, t.pc)) = some (0x0FFF, 0x202) := by decide
/-- RV9 and RV12. -/
theorem test_rnd : after 0xAB (prog 0x200 [0xC3, 0x0F]) (·.getV 3) = some 0x0B ∧
    after 0x7F ((prog 0x200 [0xCF, 0x80]).setV 0xF 1) (·.getV 0xF) = some 0x00 := by decide

/-! ## Display -/

/-- DV1. -/
theorem test_cls :
    after 0 { prog 0x200 [0x00, 0xE0] with disp := Display.setPix Display.clear 9 3 true, v := Vector.replicate 16 7 }
      (fun t => (pixel t 9 3, t.getV 0xF, t.pc)) = some (false, 7, 0x202) := by decide
/-- DV4: a collision at (0, 0), an incoming 1 at (7, 0). -/
theorem test_drw_collision :
    after 0 { drawing [0xD0, 0x11] 0x81 with disp := Display.setPix Display.clear 0 0 true }
      (fun t => (pixel t 0 0, pixel t 1 0, pixel t 7 0, t.getV 0xF, t.pc)) = some (false, false, true, 1, 0x204) := by decide
/-- DV7: the old `VF` is the coordinate. -/
theorem test_drw_vf_coordinate :
    after 0 ((drawing [0xDF, 0x01] 0x80).setV 0xF 5) (fun t => (pixel t 5 0, t.getV 0xF)) = some (true, 0) := by decide
/-- DV8, wrap and clip. -/
theorem test_drw_edges :
    after 0 (((drawing [0xD0, 0x11] 0x80).setV 0 0xFF).setV 1 0xFF) (fun t => pixel t 63 31) = some true ∧
    (nextState? (drwWith { params with drawEdge := .clip } 0 1 1 (((drawing [] 0x80).setV 0 0xFF).setV 1 0xFF))).map
      (fun t => (pixel t 63 31, t.getV 0xF)) = some (false, 0) := by decide
/-- DV11: row 1 at 0x1000. -/
theorem test_drw_fault : fault? (stepWith 0 { prog 0x200 [0xD0, 0x12] with i := 0x0FFF }) = some (.addressingViolation 0x1000 0x200 .draw) := by
  decide
/-- DV15: the separate flag. -/
theorem test_drw_separate :
    (nextState? (drwWith { params with collisionStorage := .separate } 2 1 1
      { (drawing [] 0xFF).setV 0xF 9 with collisionC := true })).map (fun t => (t.collisionC, t.getV 0xF)) = some (false, 9) := by decide

/-! ## Ports and the assembler -/

/-- HV2 and HV3. -/
theorem test_load : (transact (.load 0x300 0xAB) State.reset).1.mem = [(0x300, 0xAB)] ∧
    (transact (.load 0x1000 0xAB) State.reset).2 = .loadRejected := by decide
/-- Writing the reset contents removes the cell; cells stay sorted. -/
theorem test_store_canonical : Memory.store [(1, 7), (5, 9)] 5 0 = [(1, 7)] ∧ Memory.store [(1, 7), (5, 9)] 3 4 = [(1, 7), (3, 4), (5, 9)] := by
  decide
/-- P2's bytes. -/
theorem test_assemble_p2 :
    assemble [.insn .ld [.reg 0xA, .num 0xFF], .insn .call [.label "sub"], .insn .sne [.reg 0xA, .num 1], .label "ok",
        .insn .jp [.label "ok"], .label "sub", .insn .add [.reg 0xA, .num 2], .insn .ret []] =
      .ok (placeAt 0x200 [0x6A, 0xFF, 0x22, 0x08, 0x4A, 0x01, 0x12, 0x06, 0x7A, 0x02, 0x00, 0xEE]) := by decide
theorem test_assemble_errors :
    assemble [.insn .jp [.num 0x1000]] = .error (.operand (.address 0x1000)) ∧ assemble [.insn .jp [.label "x"]] = .error (.undefinedLabel "x") ∧
    assemble [.insn .sne [.reg 0, .reg 1], .org 0x300, .dw 0x1234, .db [0xAB]] =
      .ok [(0x200, 0x90), (0x201, 0x10), (0x300, 0x12), (0x301, 0x34), (0x302, 0xAB)] := by decide
theorem test_register_names : Operand.ofName ['V', 'A'] = some (.reg 10) ∧ Operand.ofName ['v', 'f'] = some (.reg 15) ∧
    Operand.ofName ['V', 'G'] = none ∧ Operand.ofName ['V'] = none := by decide
/-- CV2: a run ends at a self-jump. -/
theorem test_self_jump : (prog 0x200 [0x12, 0x00]).atSelfJump = true ∧ (prog 0x200 [0x12, 0x02]).atSelfJump = false := by decide

/-! ## Witnesses: concrete states and operands that meet the hypotheses of the statements together -/

theorem witness_EncodeAfterDecode : decode 0x9120 = .instr (.sneR 1 2) ∧ decode 0x9121 = .unknown 0x9121 := by decide
theorem witness_OpcodeTableAgreesWithDecoder : decode 0xDABF = .instr (.drw 0xA 0xB 15) ∧ decode 0x00E1 = .unknown 0x00E1 := by decide
theorem witness_OperandsAreNeverTruncated : (Source.drw 15 15 15).check = .ok (.drw 15 15 15) := by decide
theorem witness_StepRunsDecodedInstruction : Fetches (prog 0xFFE [0x6A, 0x7F]) 0x6A7F ∧ decode 0x6A7F = .instr (.ld 0xA 0x7F) := by decide
theorem witness_UnknownOpcodeOnlyAdvances : Fetches (prog 0x200 [0x80, 0x14]) 0x8014 ∧ decode 0x8014 = .unknown 0x8014 := by decide
theorem witness_FetchReadsBigEndianWordOrFaults : Fetches (prog 0xFFE [0x12, 0x34]) 0x1234 ∧ (prog 0xFFF []).pc.toNat = 4095 ∧
    4096 ≤ (prog 0x1000 []).pc.toNat := by decide
/-- Each clause of `FatalConditionsExactly`: the two fetch faults are `test_fetch_faults`. -/
theorem witness_FatalConditionsExactly_call :
    Fetches { prog 0x400 [0x25, 0x00] with stack := List.replicate 16 0 } 0x2500 ∧ decode 0x2500 = .instr (.call 0x500) ∧
    fault? (stepWith 0 { prog 0x400 [0x25, 0x00] with stack := List.replicate 16 0 }) = some (.stackOverflow 0x400 0x500) := by decide
theorem witness_FatalConditionsExactly_draw :
    Fetches { prog 0x200 [0xD0, 0x12] with i := 0x0FFF } 0xD012 ∧ decode 0xD012 = .instr (.drw 0 1 2) ∧ 1 < (2 : Nibble).toNat ∧
    4096 ≤ (0x0FFF : Word).toNat + 1 ∧ (∀ q, q < 1 → (0x0FFF : Word).toNat + q < 4096) := by decide
theorem witness_FatalStepChangesNothingAndRepeats : stepWith 0 (prog 0x1000 []) = .fault (.addressingViolation 0x1000 0x1000 .fetch) := by
  rfl
theorem witness_RandomByteReachesOnlyRnd :
    (∀ w, Fetches State.reset w → ∀ x kk, decode w ≠ .instr (.rnd x kk)) ∧ ∃ t, stepWith 0 State.reset = .next t := by
  refine ⟨fun w h x kk => ?_, _, rfl⟩
  have hw : w = 0 := BitVec.eq_of_toNat_eq h.2.symm
  subst hw
  simp [decode, decodeFamily, opField]
theorem witness_EventsOfEveryStep : Fetches (prog 0x300 [0x00, 0xEE]) 0x00EE ∧ ∃ t, stepWith 0 (prog 0x300 [0x00, 0xEE]) = .next t :=
  ⟨by decide, _, rfl⟩
theorem witness_PcAfterEveryStep : Fetches (drawing [0xD0, 0x11] 0xFF) 0xD011 ∧ ∃ t, stepWith 0 (drawing [0xD0, 0x11] 0xFF) = .next t :=
  ⟨by decide, _, rfl⟩

/-- A state of the invariant in the middle of a call. -/
def calling : State := { prog 0x300 [0x00, 0xEE] with stack := [0x202], i := 0x0FFF, tick := 3 }

theorem witness_EveryStepKeepsInvariant : calling.Inv ∧ ∃ t, stepWith 0 calling = .next t :=
  ⟨⟨by decide, by decide, by decide, by decide, fun e he => by
      obtain rfl : e = 0x202 := by simpa [calling] using he
      decide, by decide, by decide⟩, _, rfl⟩
theorem witness_NoStepWritesMemory : ∃ t, stepWith 0 calling = .next t := ⟨_, rfl⟩
theorem witness_OnlyItsWritersChangeARegister :
    after 0 (prog 0x200 [0x6A, 0x7F]) (fun t => decide (t.v.get 0xA ≠ (prog 0x200 [0x6A, 0x7F]).v.get 0xA)) = some true ∧
    after 0 ((drawing [0xD0, 0x11] 0).setV 0xF 5) (fun t => decide (t.v.get 0xF ≠ 5)) = some true := by decide
theorem witness_OnlyTheirWritersChangeIndexStackDisplay :
    after 0 (prog 0x200 [0xA1, 0x23]) (fun t => decide (t.i ≠ 0)) = some true ∧
    after 0 (prog 0x200 [0x23, 0x00]) (fun t => decide (t.stack ≠ [])) = some true ∧
    after 0 (drawing [0xD0, 0x11] 0x80) (fun t => pixel t 0 0) = some true := by decide
theorem witness_RetPopsOrReports :
    (prog 0x300 [0x00, 0xEE]).stack = [] ∧ calling.stack = [] ++ [0x202] ∧ Fetches (prog 0x300 [0x00, 0xEE]) 0x00EE ∧
    Fetches calling 0x00EE ∧ Fetches (prog 0xFFE [0x23, 0x00]) (0x2000 ||| (0x300 : Addr12).setWidth 16) ∧
    (prog 0x1000 []).pc = 0x1000 := by decide
theorem witness_RetPopsOrReports_call : ∃ t, stepWith 0 (prog 0xFFE [0x23, 0x00]) = .next t := ⟨_, rfl⟩
theorem witness_JpSetsPc : Fetches (prog 0x200 [0x1F, 0xFF]) (0x1000 ||| (0xFFF : Addr12).setWidth 16) := by decide
theorem witness_CallPushesOrOverflows :
    (List.replicate 15 (0 : Word)).length < 16 ∧ (List.replicate 16 (0 : Word)).length = 16 ∧
    Fetches { prog 0x400 [0x25, 0x00] with stack := List.replicate 15 0 } (0x2000 ||| (0x500 : Addr12).setWidth 16) ∧
    Fetches { prog 0x400 [0x25, 0x00] with stack := List.replicate 16 0 } (0x2000 ||| (0x500 : Addr12).setWidth 16) := by decide
theorem witness_RetUndoesCall : ∃ t, exec (.call 0x300) calling = .next t := ⟨_, rfl⟩
theorem witness_SeSkipsWhenEqual : Fetches (prog 0xFFC [0x3F, 0x01]) (0x3000 ||| regAt 8 0xF ||| (0x01 : Byte).setWidth 16) := by decide
theorem witness_SneSkipsWhenUnequal : Fetches (prog 0x200 [0x43, 0x42]) (0x4000 ||| regAt 8 3 ||| (0x42 : Byte).setWidth 16) := by decide
theorem witness_SneRSkipsWhenUnequal : Fetches (prog 0x200 [0x91, 0x20]) (0x9000 ||| regAt 8 1 ||| regAt 4 2) := by decide
theorem witness_CallUnderAnyCapacity :
    (∀ capacity, ({ params with stackCapacity := none } : Params).stackCapacity = some capacity → calling.stack.length < capacity) ∧
    (∀ capacity, ({ params with stackCapacity := some 2 } : Params).stackCapacity = some capacity → calling.stack.length < capacity) ∧
    ({ params with stackCapacity := some 1 } : Params).stackCapacity = some calling.stack.length := by
  refine ⟨fun c h => by simp at h, fun c h => ?_, by decide⟩
  obtain rfl : 2 = c := by simpa using h
  decide
theorem witness_SelfJumpChangesNothing :
    (prog 0x200 [0x12, 0x00]).pc = (0x200 : Addr12).setWidth 16 ∧ Fetches (prog 0x200 [0x12, 0x00]) (0x1000 ||| (0x200 : Addr12).setWidth 16) := by
  decide
theorem witness_LdLoadsImmediate : Fetches (prog 0x200 [0x6A, 0x7F]) (0x6000 ||| regAt 8 0xA ||| (0x7F : Byte).setWidth 16) := by decide
theorem witness_AddWrapsWithoutCarry : Fetches (prog 0x200 [0x7F, 0x01]) (0x7000 ||| regAt 8 0xF ||| (0x01 : Byte).setWidth 16) := by decide
theorem witness_LdILoadsIndex : Fetches (prog 0x200 [0xAF, 0xFF]) (0xA000 ||| (0xFFF : Addr12).setWidth 16) := by decide
theorem witness_RndMasksTheRandomByte : Fetches (prog 0x200 [0xC3, 0x0F]) (0xC000 ||| regAt 8 3 ||| (0x0F : Byte).setWidth 16) := by decide
theorem witness_ClsClearsEveryPixel : Fetches (prog 0x200 [0x00, 0xE0]) 0x00E0 := by decide
/-- The boundary of the range, and `n = 0` with an index that no row may be read at. -/
theorem witness_DrwCompositesAndDetectsCollision :
    RowsInMemory 15 { State.reset with i := 0x0FF1 } ∧ RowsInMemory 0 { State.reset with i := 0xFFFF } := by decide
/-- A collision happens, and a draw without one. -/
theorem witness_Collision :
    Collision wrapTarget 0 1 1 { drawing [] 0x80 with disp := Display.setPix Display.clear 0 0 true } ∧
    ¬ Collision wrapTarget 0 1 1 (drawing [] 0x80) := by
  refine ⟨⟨0, 0, by decide, by decide, 0, 0, ⟨by decide, by decide⟩, by decide, by decide⟩, ?_⟩
  rintro ⟨r, b, -, -, px, py, -, h, -⟩
  have hc : pixel (drawing [] 0x80) px py = false := Display.pix_clear px py
  exact absurd (hc.symm.trans h) (by decide)
theorem witness_DrwOutsideMemoryFaults : ¬ RowsInMemory 15 { State.reset with i := 0x0FF2 } ∧ ¬ RowsInMemory 1 { State.reset with i := 0x1000 } := by
  decide
theorem witness_DrawingTwiceRestoresTheDisplay :
    (0 : RegIdx) ≠ 0xF ∧ (1 : RegIdx) ≠ 0xF ∧ (∃ t, exec (.drw 0 1 1) (drawing [] 0xFF) = .next t ∧ t.v.get 0xF = 0x00) ∧
    spriteBitAt (drawing [] 0xFF) 0 0 = true := by
  exact ⟨by decide, by decide, ⟨_, rfl, by decide⟩, by decide⟩
theorem witness_WorkedExampleOfTheSpec :
    (drawing [] 0xFF).i.toNat < 4096 ∧ Memory.byteAt (drawing [] 0xFF).mem (drawing [] 0xFF).i.toNat = 0xFF ∧
    (drawing [] 0xFF).v.get 0 = 0 ∧ (drawing [] 0xFF).v.get 1 = 0 ∧ ∀ px py, pixel (drawing [] 0xFF) px py = false :=
  ⟨by decide, by decide, by decide, by decide, fun px py => Display.pix_clear px py⟩
theorem witness_LoadWritesOneByteOrIsRejected : Memory.wf calling.mem = true ∧ 0xFFF < 4096 ∧ 4096 ≤ 0x1000 := by decide
theorem witness_LoadedWordIsFetched : Memory.wf calling.mem = true ∧ (prog 0xFFE []).pc.toNat + 1 < 4096 := by decide
theorem witness_CanonicalMemoriesThatReadTheSameAreEqual :
    Memory.wf (Memory.store (Memory.store [] 5 9) 1 7) = true ∧ Memory.wf (Memory.store (Memory.store [] 1 7) 5 9) = true ∧
    ∀ a : Nat, Memory.byteAt (Memory.store (Memory.store [] 5 9) 1 7) a = Memory.byteAt (Memory.store (Memory.store [] 1 7) 5 9) a :=
  ⟨by decide, by decide, fun _ => rfl⟩
theorem witness_ReadPortsOnlyRead : (transact (.readState 0xFFF) calling).2 = .view ⟨calling.v, 0x0FFF, 0x300, [0x202], 0⟩ ∧
    transact (.readState 0x1000) calling = (calling, .readRejected) := by decide
theorem witness_InstancesShareNothing :
    ∃ board answer, Board.transact [State.reset, calling] 1 (.step 0) = some (board, answer) ∧ [calling, calling][1]? = [State.reset, calling][1]? :=
  ⟨_, _, rfl, rfl⟩
theorem witness_FaultedRunEndsWhereEveryStepFaults : run [7] (prog 0x1000 []) = .faulted (prog 0x1000 []) (.addressingViolation 0x1000 0x1000 .fetch) := by
  rfl

end Sys2Proof.Tests
end

section
/-! PROOFS. Construction (10_state.md R34) and the independence of machines on a board (10_state.md R37). -/

namespace Sys2Proof.Machine

@[simp] theorem State.reset_v_get (x : RegIdx) : State.reset.v.get x = 0x00 := by
  simp [State.reset, Vector.get_eq_getElem]

theorem State.reset_disp : State.reset.disp = Display.clear := rfl

/-- What a transaction with a board does: machine `k` exists, is replaced by its own transaction's result, and answers. -/
theorem Board.transact_eq_some_iff {board after : Board} {k : Nat} {t : Transaction} {answer : Response} :
    board.transact k t = some (after, answer) ↔
      ∃ s, board[k]? = some s ∧ board.set k (Machine.transact t s).1 = after ∧ (Machine.transact t s).2 = answer := by
  unfold Board.transact
  cases board[k]? with
  | none => simp
  | some s => simp

/-- The writing half of R37. -/
theorem Board.transact_other {board after : Board} {k j : Nat} {t : Transaction} {answer : Response}
    (h : board.transact k t = some (after, answer)) (hj : j ≠ k) : after[j]? = board[j]? := by
  obtain ⟨s, -, rfl, -⟩ := Board.transact_eq_some_iff.1 h
  exact List.getElem?_set_ne hj.symm

/-- Machine `k` afterwards, and its answer, are functions of machine `k` alone. -/
theorem Board.transact_self {board : Board} {k : Nat} {s : State} (t : Transaction) (hs : board[k]? = some s) :
    ∃ after : Board, board.transact k t = some (after, (Machine.transact t s).2) ∧
      after[k]? = some (Machine.transact t s).1 := by
  have hk : k < board.length := (List.getElem?_eq_some_iff.1 hs).1
  exact ⟨_, Board.transact_eq_some_iff.2 ⟨s, hs, rfl, rfl⟩, List.getElem?_set_self hk⟩

/-- The reading half of R37: two boards that agree on machine `k` agree on its answer and on its next state. -/
theorem Board.transact_congr {board other after : Board} {k : Nat} {t : Transaction} {answer : Response}
    (h : board.transact k t = some (after, answer)) (hsame : other[k]? = board[k]?) :
    ∃ after' : Board, other.transact k t = some (after', answer) ∧ after'[k]? = after[k]? := by
  obtain ⟨s, hs, -, -⟩ := Board.transact_eq_some_iff.1 h
  obtain ⟨b, hb, hbk⟩ := Board.transact_self t hs
  obtain ⟨after', ho, hok⟩ := Board.transact_self t (hsame.trans hs)
  obtain ⟨rfl, rfl⟩ := Prod.mk.inj (Option.some.inj (h.symm.trans hb))
  exact ⟨after', ho, hok.trans hbk.symm⟩

end Sys2Proof.Machine

namespace Sys2Proof.Proofs

open Sys2Proof.Machine Sys2Proof.Statements

/-- Settles O48: a transaction sets one place of the board, to a value that only the machine standing there determines. -/
theorem instancesShareNothing : Obligations.InstancesShareNothing := by
  intro board other k t after answer h
  exact ⟨fun _ hj => Board.transact_other h hj, fun hsame => Board.transact_congr h hsame⟩

/-- Every pixel is unset at construction (R34). -/
theorem pixel_reset (x : Fin 64) (y : Fin 32) : pixel State.reset x y = false :=
  (congrArg (Display.pix · x y) State.reset_disp).trans (Display.pix_clear x y)

/-- Settles O42: the memory without cells, the all-zero registers and the cleared display read as the table's values everywhere. -/
theorem resetValues : Obligations.ResetValues :=
  ⟨fun a _ => Memory.byteAt_nil a, State.reset_v_get, rfl, rfl, rfl, pixel_reset, rfl⟩

end Sys2Proof.Proofs
end

section
/-! PROOFS. The step of a state that fetches a given word (40_step_engine.md R101 to R104), and the unknown opcode (30_encoding.md R76). -/

namespace Sys2Proof.Proofs

open Sys2Proof.Machine Sys2Proof.Statements

/-- `Fetches` is what the model's fetch answers: both addresses are valid, and a word is determined by its number (R101). -/
theorem fetchWord_of_fetches {s : State} {w : Word} (h : Fetches s w) : s.fetchWord = .ok w := by
  obtain ⟨hvalid, hbytes⟩ := h
  have hw : wordOfBytes (s.mem.byteAt s.pc.toNat) (s.mem.byteAt (s.pc.toNat + 1)) = w :=
    BitVec.eq_of_toNat_eq ((wordOfBytes_toNat _ _).trans hbytes)
  rw [s.fetchWord_valid hvalid, hw]

/-- The step of a state that fetches `w` is the operation of `w` on the fetch-advanced state (R102, R103). -/
theorem stepWith_of_fetches (rand : Byte) {s : State} {w : Word} (h : Fetches s w) :
    stepWith rand s = execDecoded (decode w) (advanced s rand) :=
  stepWith_of_fetch rand (fetchWord_of_fetches h)

/-- After the fetch advance the fetch address is the `pc` of before (R102). -/
@[simp] theorem fetchAddr_advanced (s : State) (rand : Byte) : (advanced s rand).fetchAddr = s.pc :=
  s.fetchAddr_beginStep rand

/-- The fetch-advanced state holds no event yet, so an event reported in it is the step's only one (R105). -/
theorem report_advanced (s : State) (rand : Byte) (e : Event) :
    (advanced s rand).report e = { advanced s rand with events := [e] } := rfl

/-- The unknown opcode after the fetch advance (R104). -/
theorem execUnknown_advanced (w : Word) (s : State) (rand : Byte) :
    execUnknown w (advanced s rand) = .next { advanced s rand with events := [.unknownOpcode w s.pc] } := by
  rw [execUnknown, fetchAddr_advanced, report_advanced]

/-- 0x0000 is of family 0 and is neither of its two literals (R75, R76). -/
theorem decode_zero : decode 0x0000 = .unknown 0x0000 := by
  rw [decode_family_zero (by decide), if_neg (by decide), if_neg (by decide)]

/-- Settles O9: the step of an unknown word is `execUnknown` on the fetch-advanced state, which only reports. -/
theorem unknownOpcodeOnlyAdvances : Obligations.UnknownOpcodeOnlyAdvances := by
  refine ⟨fun w hw s rand hfetch => ?_, decode_zero⟩
  calc stepWith rand s = execDecoded (decode w) (advanced s rand) := stepWith_of_fetches rand hfetch
    _ = execUnknown w (advanced s rand) := by rw [hw]; rfl
    _ = .next { advanced s rand with events := [.unknownOpcode w s.pc] } := execUnknown_advanced w s rand

end Sys2Proof.Proofs
end

section
/-! PROOFS. The words of the formats `A` and `XK` as R80 writes them, and their fields (30_encoding.md R71, R72, R74). -/

namespace Sys2Proof.Proofs

open Sys2Proof.Machine Sys2Proof.Statements

/-! ## The OR of R80 is the format -/

/-- A register index in its field is the index widened, then shifted. -/
theorem regAt_eq_shiftLeft (k : Nat) (x : RegIdx) : regAt k x = (BitVec.ofFin (w := 4) x).setWidth 16 <<< k := by
  apply BitVec.eq_of_toNat_eq
  simp [regAt]

theorem formatA_eq_or (op : Nibble) (nnn : Addr12) :
    formatA op nnn = op.setWidth 16 <<< 12 ||| nnn.setWidth 16 := by
  have happend : (op ++ nnn).setWidth 16 = op.setWidth 16 <<< 12 ||| nnn.setWidth 16 :=
    BitVec.setWidth_append_eq_shiftLeft_setWidth_or
  exact (BitVec.setWidth_eq (op ++ nnn)).symm.trans happend

theorem formatXK_eq_or (op : Nibble) (x : RegIdx) (kk : Byte) :
    formatXK op x kk = op.setWidth 16 <<< 12 ||| regAt 8 x ||| kk.setWidth 16 := by
  have happend : (op ++ BitVec.ofFin (w := 4) x ++ kk).setWidth 16 =
      op.setWidth 16 <<< 12 ||| (BitVec.ofFin (w := 4) x).setWidth 16 <<< 8 ||| kk.setWidth 16 :=
    BitVec.setWidth_append_append_eq_shiftLeft_setWidth_or
  rw [regAt_eq_shiftLeft]
  exact (BitVec.setWidth_eq (op ++ BitVec.ofFin (w := 4) x ++ kk)).symm.trans happend

/-! ## The fields of a format -/

@[simp] theorem opField_formatA (op : Nibble) (nnn : Addr12) : opField (formatA op nnn) = op := by
  have hnnn := nnn.isLt
  apply BitVec.eq_of_toNat_eq
  rw [opField_toNat, formatA_toNat]
  omega

@[simp] theorem nnnField_formatA (op : Nibble) (nnn : Addr12) : nnnField (formatA op nnn) = nnn := by
  have hnnn := nnn.isLt
  apply BitVec.eq_of_toNat_eq
  rw [nnnField_toNat, formatA_toNat]
  omega

@[simp] theorem opField_formatXK (op : Nibble) (x : RegIdx) (kk : Byte) : opField (formatXK op x kk) = op := by
  have hx := x.isLt
  have hkk := kk.isLt
  apply BitVec.eq_of_toNat_eq
  rw [opField_toNat, formatXK_toNat]
  omega

@[simp] theorem xField_formatXK (op : Nibble) (x : RegIdx) (kk : Byte) : xField (formatXK op x kk) = x := by
  have hx := x.isLt
  have hkk := kk.isLt
  apply Fin.ext
  rw [xField_val, formatXK_toNat]
  omega

@[simp] theorem kkField_formatXK (op : Nibble) (x : RegIdx) (kk : Byte) : kkField (formatXK op x kk) = kk := by
  have hkk := kk.isLt
  apply BitVec.eq_of_toNat_eq
  rw [kkField_toNat, formatXK_toNat]
  omega

/-- A word whose family field is not 0 decodes by its family (R74). -/
theorem decode_of_opField_ne_zero {w : Word} (h : opField w ≠ 0) : decode w = decodeFamily w := by
  refine decode_family fun hzero => h (BitVec.eq_of_toNat_eq ?_)
  rw [opField_toNat, hzero]
  rfl

/-- A word written in the format `A` decodes by the family it is written with. -/
theorem decode_or_formatA {op : Nibble} (hop : op ≠ 0) (nnn : Addr12) :
    decode (op.setWidth 16 <<< 12 ||| nnn.setWidth 16) = decodeFamily (formatA op nnn) := by
  have hfield : opField (formatA op nnn) ≠ 0 := by rwa [opField_formatA]
  rw [← formatA_eq_or, decode_of_opField_ne_zero hfield]

/-- A word written in the format `XK` decodes by the family it is written with. -/
theorem decode_or_formatXK {op : Nibble} (hop : op ≠ 0) (x : RegIdx) (kk : Byte) :
    decode (op.setWidth 16 <<< 12 ||| regAt 8 x ||| kk.setWidth 16) = decodeFamily (formatXK op x kk) := by
  have hfield : opField (formatXK op x kk) ≠ 0 := by rwa [opField_formatXK]
  rw [← formatXK_eq_or, decode_of_opField_ne_zero hfield]

/-! ## The words of `RET`, `CALL`, `SE` and `SNE` (41_control_flow.md) -/

/-- `2nnn` (R122). -/
theorem decode_call (nnn : Addr12) : decode (0x2000 ||| nnn.setWidth 16) = .instr (.call nnn) :=
  (decode_or_formatA (op := 0x2) (by decide) nnn).trans (by simp [decodeFamily])

/-- `3xkk` (R123). -/
theorem decode_se (x : RegIdx) (kk : Byte) :
    decode (0x3000 ||| regAt 8 x ||| kk.setWidth 16) = .instr (.se x kk) :=
  (decode_or_formatXK (op := 0x3) (by decide) x kk).trans (by simp [decodeFamily])

/-- `4xkk` (R124). -/
theorem decode_sne (x : RegIdx) (kk : Byte) :
    decode (0x4000 ||| regAt 8 x ||| kk.setWidth 16) = .instr (.sne x kk) :=
  (decode_or_formatXK (op := 0x4) (by decide) x kk).trans (by simp [decodeFamily])

/-- `00EE` is the second literal (R74, R120). -/
theorem decode_ret : decode 0x00EE = .instr .ret := by
  rw [decode_family_zero (by decide), if_neg (by decide), if_pos rfl]

end Sys2Proof.Proofs
end

section
/-! PROOFS. `RET`, `SE` and `SNE` (41_control_flow.md R120, R123, R124), and the fetch at 0x1000 where the highest skip or return leads. -/

namespace Sys2Proof.Proofs

open Sys2Proof.Machine Sys2Proof.Statements

/-- The step of a state whose word is an instruction's is the instruction on the fetch-advanced state (R102, R103). -/
theorem stepWith_of_fetches_instr (rand : Byte) {s : State} {w : Word} {i : Instr} (hfetch : Fetches s w)
    (hdecode : decode w = .instr i) : stepWith rand s = exec i (advanced s rand) := by
  rw [stepWith_of_fetches rand hfetch, hdecode]
  rfl

/-- 0x1000 is no address of Memory: a fetch there is a violation (R101). -/
theorem stepWith_at_memory_end (rand : Byte) {s : State} (hpc : s.pc = 0x1000) :
    stepWith rand s = .fault (.addressingViolation 0x1000 0x1000 .fetch) := by
  have houtside : ¬ Valid s.pc.toNat := by rw [hpc]; decide
  rw [stepWith_of_fetch_error rand (s.fetchWord_outside houtside), hpc]
  rfl

/-! ## The skips -/

/-- A skip moves `pc` alone. -/
theorem skipIf_eq_pc_ite (s : State) (c : Bool) :
    s.skipIf c = { s with pc := if c then s.pc + 2 else s.pc } := by
  cases c <;> rfl

/-- Two bytes after the fetch advance of two are four in all (R25). -/
theorem advanced_pc_add_two (s : State) (rand : Byte) : (advanced s rand).pc + 2 = s.pc + 4 :=
  BitVec.add_assoc s.pc 2 2

theorem exec_se (x : RegIdx) (kk : Byte) (s : State) :
    exec (.se x kk) s = .next { s with pc := if s.v.get x = kk then s.pc + 2 else s.pc } := by
  have hskip : exec (.se x kk) s = .next (s.skipIf (s.v.get x == kk)) := rfl
  simp only [hskip, skipIf_eq_pc_ite, beq_iff_eq]

theorem exec_sne (x : RegIdx) (kk : Byte) (s : State) :
    exec (.sne x kk) s = .next { s with pc := if s.v.get x ≠ kk then s.pc + 2 else s.pc } := by
  have hskip : exec (.sne x kk) s = .next (s.skipIf (s.v.get x != kk)) := rfl
  simp only [hskip, skipIf_eq_pc_ite, bne_iff_ne]

/-- Settles O26: the skip adds two to the `pc` that the fetch has advanced, and 0x1000 is outside Memory. -/
theorem seSkipsWhenEqual : Obligations.SeSkipsWhenEqual := by
  refine ⟨fun x kk => ⟨exec_se x kk, fun s rand hfetch => ?_⟩, fun s rand => stepWith_at_memory_end rand⟩
  rw [stepWith_of_fetches_instr rand hfetch (decode_se x kk), exec_se, advanced_pc_add_two]
  rfl

/-- Settles O27: as `SE`, under the opposite condition. -/
theorem sneSkipsWhenUnequal : Obligations.SneSkipsWhenUnequal := by
  refine fun x kk => ⟨exec_sne x kk, fun s rand hfetch => ?_⟩
  rw [stepWith_of_fetches_instr rand hfetch (decode_sne x kk), exec_sne, advanced_pc_add_two]
  rfl

/-! ## `RET` -/

theorem exec_ret_empty {s : State} (hs : s.stack = []) :
    exec .ret s = .next (s.report (.emptyStackReturn s.fetchAddr)) := by
  simp [exec, execRet, State.pop_empty hs]

theorem exec_ret_concat {s : State} {st : List Word} {top : Word} (hs : s.stack = st ++ [top]) :
    exec .ret s = .next { s with stack := st, pc := top } := by
  simp [exec, execRet, State.pop_concat hs, State.setPc]

/-- A `CALL` that is carried out leaves the address after it on top of the stack (R122). -/
theorem stack_of_call {rand : Byte} {s t : State} {nnn : Addr12} (hfetch : Fetches s (0x2000 ||| nnn.setWidth 16))
    (hnext : stepWith rand s = .next t) : t.stack = s.stack ++ [s.pc + 2] := by
  have hcall : execCall nnn (advanced s rand) = .next t :=
    (stepWith_of_fetches_instr rand hfetch (decode_call nnn)).symm.trans hnext
  rcases execCall_cases nnn (advanced s rand) with ⟨-, hfull⟩ | ⟨-, hpush⟩
  · rw [hfull] at hcall
    cases hcall
  · rw [hpush] at hcall
    cases hcall
    rfl

/-- The address after a fetched word does not wrap: both bytes of the word lie in Memory (R101, R120). -/
theorem pc_add_two_toNat {s : State} {w : Word} (hfetch : Fetches s w) : (s.pc + 2).toNat = s.pc.toNat + 2 := by
  have hvalid : s.pc.toNat + 1 < 4096 := hfetch.1
  rw [BitVec.toNat_add]
  exact Nat.mod_eq_of_lt (show s.pc.toNat + 2 < 65536 by omega)

/-- Settles O22: the two answers of a `Pop`, after the fetch advance as before it, and the bound of what a `CALL` pushes. -/
theorem retPopsOrReports : Obligations.RetPopsOrReports := by
  refine ⟨fun s => exec_ret_empty, fun s st top => exec_ret_concat, fun s rand hfetch hs => ?_,
    fun s rand st top hfetch hs => ?_, fun s t rand nnn hfetch hnext => ?_, fun s rand => stepWith_at_memory_end rand⟩
  · have hs' : (advanced s rand).stack = [] := hs
    rw [stepWith_of_fetches_instr rand hfetch decode_ret, exec_ret_empty hs', fetchAddr_advanced, report_advanced]
  · have hs' : (advanced s rand).stack = st ++ [top] := hs
    rw [stepWith_of_fetches_instr rand hfetch decode_ret, exec_ret_concat hs']
  · have hpushed := pc_add_two_toNat hfetch
    have hvalid : s.pc.toNat + 1 < 4096 := hfetch.1
    exact ⟨s.pc + 2, stack_of_call hfetch hnext, hpushed, by omega⟩

end Sys2Proof.Proofs
end

section
/-! PROOFS. `LD`, `ADD` and `LD_I` (42_register_ops.md R140 to R142): each is one update of the fetch-advanced state. -/

namespace Sys2Proof.Proofs

open Sys2Proof.Machine Sys2Proof.Statements

/-- An instruction with one effect on every state has it, as a step, on the fetch-advanced state (R102, R103). -/
theorem stepDoes_of_exec {w : Word} {i : Instr} {effect : State → State} (hdecode : decode w = .instr i)
    (hexec : ∀ s : State, exec i s = .next (effect s)) : StepDoes w effect := fun s rand hfetch =>
  (stepWith_of_fetches_instr rand hfetch hdecode).trans (hexec (advanced s rand))

/-! ## The words of the three instructions -/

/-- `6xkk` (R140). -/
theorem decode_ld (x : RegIdx) (kk : Byte) :
    decode (0x6000 ||| regAt 8 x ||| kk.setWidth 16) = .instr (.ld x kk) :=
  (decode_or_formatXK (op := 0x6) (by decide) x kk).trans (by simp [decodeFamily])

/-- `7xkk` (R141). -/
theorem decode_add (x : RegIdx) (kk : Byte) :
    decode (0x7000 ||| regAt 8 x ||| kk.setWidth 16) = .instr (.add x kk) :=
  (decode_or_formatXK (op := 0x7) (by decide) x kk).trans (by simp [decodeFamily])

/-- `Annn` (R142). -/
theorem decode_ldI (nnn : Addr12) : decode (0xA000 ||| nnn.setWidth 16) = .instr (.ldI nnn) :=
  (decode_or_formatA (op := 0xA) (by decide) nnn).trans (by simp [decodeFamily])

/-! ## What they do -/

theorem exec_ld (x : RegIdx) (kk : Byte) (s : State) : exec (.ld x kk) s = .next { s with v := s.v.set x kk } := rfl

/-- The sum of two bytes is the sum of their numbers modulo 256. -/
theorem byte_add_eq_ofNat_mod (a b : Byte) : a + b = BitVec.ofNat 8 ((a.toNat + b.toNat) % 256) := by
  apply BitVec.eq_of_toNat_eq
  rw [BitVec.toNat_add, BitVec.toNat_ofNat, Nat.mod_mod]

theorem exec_add (x : RegIdx) (kk : Byte) (s : State) : exec (.add x kk) s =
    .next { s with v := s.v.set x (BitVec.ofNat 8 (((s.v.get x).toNat + kk.toNat) % 256)) } := by
  have hsum : exec (.add x kk) s = .next { s with v := s.v.set x (s.v.get x + kk) } := rfl
  rw [hsum, byte_add_eq_ofNat_mod]

theorem exec_ldI (nnn : Addr12) (s : State) : exec (.ldI nnn) s = .next { s with i := nnn.setWidth 16 } := rfl

/-- Settles O32: the sum of bytes drops its carry, and `V[x]` alone is written. -/
theorem addWrapsWithoutCarry : Obligations.AddWrapsWithoutCarry := fun x kk =>
  ⟨exec_add x kk, stepDoes_of_exec (decode_add x kk) (exec_add x kk)⟩

/-- Settles O31: `V[x]` alone is written, and reads as the byte written to it. -/
theorem ldLoadsImmediate : Obligations.LdLoadsImmediate := fun x kk =>
  ⟨fun s => ⟨exec_ld x kk s, s.getV_setV_same x kk⟩, stepDoes_of_exec (decode_ld x kk) (exec_ld x kk)⟩

/-- Settles O33: `I` alone is written, and widening an address by zeros keeps its number. -/
theorem ldILoadsIndex : Obligations.LdILoadsIndex := fun nnn =>
  ⟨exec_ldI nnn, BitVec.toNat_setWidth_of_le (by decide), stepDoes_of_exec (decode_ldI nnn) (exec_ldI nnn)⟩

end Sys2Proof.Proofs
end

section
/-! PROOFS. `CLS` and `DRW` whose rows lie in Memory (43_display.md R160 to R166), and the worked examples of R167. -/

namespace Sys2Proof.Proofs

open Sys2Proof.Machine Sys2Proof.Statements

/-! ## `CLS` -/

/-- `00E0` is the first literal (R74, R160). -/
theorem decode_cls : decode 0x00E0 = .instr .cls := by
  rw [decode_family_zero (by decide), if_pos rfl]

theorem exec_cls (s : State) : exec .cls s = .next { s with disp := Display.clear } := rfl

/-- Settles O35: the display alone is replaced, by the one whose pixels are all unset. -/
theorem clsClearsEveryPixel : Obligations.ClsClearsEveryPixel :=
  ⟨fun s => ⟨exec_cls s, Display.pix_clear⟩, stepDoes_of_exec decode_cls exec_cls⟩

/-! ## A whole draw, under the spec's parameters -/

/-- The sprite bytes of `n` rows, the first at `I` (R162). -/
def spriteRows (n : Nibble) (s : State) : List Byte := (List.range n.toNat).map fun r => s.mem.byteAt (s.i.toNat + r)

/-- The display after `DRW Vx, Vy, n`, and whether the draw collided (R161, R164). -/
def drawnCanvas (x y : RegIdx) (n : Nibble) (s : State) : Canvas :=
  drawRows params.drawEdge (s.getV x).toNat (s.getV y).toNat (spriteRows n s) (s.disp, false)

/-- The state after `DRW Vx, Vy, n` whose rows lie in Memory (R161 to R166). -/
def drawn (x y : RegIdx) (n : Nibble) (s : State) : State :=
  { s with disp := (drawnCanvas x y n s).1, v := s.v.set 0xF (collisionByte (drawnCanvas x y n s).2), pc := s.pc + 2 }

theorem exec_drw_of_rowsInMemory (x y : RegIdx) {n : Nibble} {s : State} (h : RowsInMemory n s) :
    exec (.drw x y n) s = .next (drawn x y n s) := drwWith_valid params x y n s h

@[simp] theorem spriteRows_length (n : Nibble) (s : State) : (spriteRows n s).length = n.toNat := by
  simp [spriteRows]

/-- A sprite has at most 15 rows. -/
theorem spriteRows_length_le (n : Nibble) (s : State) : (spriteRows n s).length ≤ 15 := by
  have hn := n.isLt
  rw [spriteRows_length]
  omega

theorem spriteBit_spriteRows {n : Nibble} {s : State} {r : Nat} (b : Nat) (hr : r < (spriteRows n s).length) :
    spriteBit (spriteRows n s)[r] b = spriteBitAt s r b := by
  simp [spriteRows, spriteBit, spriteBitAt]

/-- The model's target of a bit is the pixel it falls on, under `DRAW_EDGE = wrap` (R163). -/
theorem target_params_iff_fallsOn (x y : RegIdx) (s : State) (r b : Nat) (px : Fin 64) (py : Fin 32) :
    target params.drawEdge ((s.getV x).toNat + b) ((s.getV y).toNat + r) = some (px, py) ↔
      FallsOn wrapTarget x y s r b px py :=
  (target_wrap ..).trans (and_congr eq_comm eq_comm)

theorem composited_drawn (x y : RegIdx) (n : Nibble) (s : State) : Composited wrapTarget x y n s (drawn x y n s) := by
  constructor
  · intro r b hr hb px py hon
    have hr' : r < (spriteRows n s).length := by rwa [spriteRows_length]
    exact (drawRows_pix_hit _ _ _ _ _ (spriteRows_length_le n s) hr' hb ((target_params_iff_fallsOn ..).2 hon)).trans
      (congrArg _ (spriteBit_spriteRows b hr'))
  · intro px py hoff
    refine drawRows_pix_miss _ _ _ _ _ fun r b hr hb htarget => ?_
    exact hoff r b (by rwa [spriteRows_length] at hr) hb ((target_params_iff_fallsOn ..).1 htarget)

theorem drawnCanvas_collision_iff (x y : RegIdx) (n : Nibble) (s : State) :
    (drawnCanvas x y n s).2 = true ↔ Collision wrapTarget x y n s := by
  refine (drawRows_collision _ _ _ _ _ (spriteRows_length_le n s)).trans ?_
  constructor
  · rintro (hinit | ⟨r, b, hr, hb, px, py, htarget, hpix, hbit⟩)
    · cases hinit
    · exact ⟨r, b, by rwa [spriteRows_length] at hr, hb, px, py, (target_params_iff_fallsOn ..).1 htarget, hpix,
        (spriteBit_spriteRows b hr).symm.trans hbit⟩
  · rintro ⟨r, b, hr, hb, px, py, hon, hpix, hbit⟩
    have hr' : r < (spriteRows n s).length := by rwa [spriteRows_length]
    exact .inr ⟨r, b, hr', hb, px, py, (target_params_iff_fallsOn ..).2 hon, hpix,
      (spriteBit_spriteRows b hr').trans hbit⟩

theorem flag_drawn (x y : RegIdx) (n : Nibble) (s : State) :
    (drawn x y n s).v.get 0xF = collisionByte (drawnCanvas x y n s).2 := s.getV_setV_same 0xF _

theorem flag_drawn_of_collision {x y : RegIdx} {n : Nibble} {s : State} (h : Collision wrapTarget x y n s) :
    (drawn x y n s).v.get 0xF = 1 := by
  rw [flag_drawn, (drawnCanvas_collision_iff x y n s).2 h]
  rfl

theorem flag_drawn_of_not_collision {x y : RegIdx} {n : Nibble} {s : State} (h : ¬ Collision wrapTarget x y n s) :
    (drawn x y n s).v.get 0xF = 0 := by
  rw [flag_drawn, Bool.eq_false_of_not_eq_true (mt (drawnCanvas_collision_iff x y n s).1 h)]
  rfl

/-- Nothing can collide on a display with no set pixel (R164). -/
theorem not_collision_of_clear {T : Nat → Nat → Fin 64 → Fin 32 → Prop} {x y : RegIdx} {n : Nibble} {s : State}
    (hclear : ∀ px py, pixel s px py = false) : ¬ Collision T x y n s := by
  rintro ⟨-, -, -, -, px, py, -, hset, -⟩
  exact Bool.false_ne_true ((hclear px py).symm.trans hset)

/-- A draw writes no register but `VF`. -/
theorem drawn_v_get_eq_zero {x y z : RegIdx} {n : Nibble} {s : State} (hz : s.v.get z = 0)
    (hflag : (drawn x y n s).v.get 0xF = 0) : (drawn x y n s).v.get z = 0 := by
  by_cases h : z = 0xF
  · rw [h, hflag]
  · exact (s.getV_setV_ne 0xF z _ h).trans hz

/-! ## The full row at the origin (R167) -/

/-- `DRW Vx, Vy, 1` from here draws the byte FF at (0, 0). -/
structure FullRowAtOrigin (x y : RegIdx) (s : State) : Prop where
  index_lt : s.i.toNat < 4096
  byte : Memory.byteAt s.mem s.i.toNat = 0xFF
  column : s.v.get x = 0
  row : s.v.get y = 0

section
variable {x y : RegIdx} {s : State} (h : FullRowAtOrigin x y s)
include h

theorem FullRowAtOrigin.exec_drw : exec (.drw x y 1) s = .next (drawn x y 1 s) :=
  exec_drw_of_rowsInMemory x y (.inr (Nat.succ_le_of_lt h.index_lt))

theorem FullRowAtOrigin.spriteBitAt_zero {b : Nat} (hb : b < 8) : spriteBitAt s 0 b = true := by
  have hall : ∀ b < 8, (0xFF : Byte).getLsbD (7 - b) = true := by decide
  rw [spriteBitAt, Nat.add_zero, h.byte]
  exact hall b hb

/-- Bit `b` falls on the pixel `(b, 0)`. -/
theorem FullRowAtOrigin.fallsOn_iff {b : Nat} (hb : b < 8) (px : Fin 64) (py : Fin 32) :
    FallsOn wrapTarget x y s 0 b px py ↔ py.val = 0 ∧ px.val = b := by
  have hmod : b % 64 = b := Nat.mod_eq_of_lt (by omega)
  simp [FallsOn, wrapTarget, h.column, h.row, hmod, and_comm]

/-- The draw flips the pixels (0, 0) to (7, 0). -/
theorem FullRowAtOrigin.pixel_drawn (px : Fin 64) (py : Fin 32) :
    pixel (drawn x y 1 s) px py = (pixel s px py ^^ decide (py.val = 0 ∧ px.val ≤ 7)) := by
  obtain ⟨hhit, hmiss⟩ := composited_drawn x y 1 s
  by_cases hin : py.val = 0 ∧ px.val ≤ 7
  · have hb : px.val < 8 := by omega
    rw [hhit 0 px.val Nat.one_pos hb px py ((h.fallsOn_iff hb px py).2 ⟨hin.1, rfl⟩), h.spriteBitAt_zero hb,
      decide_eq_true hin]
  · rw [hmiss px py, decide_eq_false hin, Bool.xor_false]
    intro r b hr hb hon
    obtain rfl : r = 0 := Nat.lt_one_iff.1 hr
    obtain ⟨hrow, hcolumn⟩ := (h.fallsOn_iff hb px py).1 hon
    exact hin ⟨hrow, by omega⟩

/-- A set pixel at (0, 0) meets the row's first bit. -/
theorem FullRowAtOrigin.collision (hset : pixel s 0 0 = true) : Collision wrapTarget x y 1 s :=
  ⟨0, 0, Nat.one_pos, by decide, 0, 0, (h.fallsOn_iff (by decide) 0 0).2 ⟨rfl, rfl⟩, hset, h.spriteBitAt_zero (by decide)⟩

/-- A draw without a collision leaves the same draw to be made again, even where `Vx` or `Vy` is `VF`. -/
theorem FullRowAtOrigin.of_drawn (hflag : (drawn x y 1 s).v.get 0xF = 0) : FullRowAtOrigin x y (drawn x y 1 s) :=
  ⟨h.index_lt, h.byte, drawn_v_get_eq_zero h.column hflag, drawn_v_get_eq_zero h.row hflag⟩

end

/-- Settles O41: the first draw sets the eight pixels without a collision, so the second is the same draw; it meets the set pixel (0, 0)
and flips the eight pixels back. -/
theorem workedExampleOfTheSpec : Obligations.WorkedExampleOfTheSpec := by
  intro x y s hindex hbyte hcolumn hrow hclear
  have first : FullRowAtOrigin x y s := ⟨hindex, hbyte, hcolumn, hrow⟩
  have hpixels : ∀ px py, pixel (drawn x y 1 s) px py = decide (py.val = 0 ∧ px.val ≤ 7) := fun px py => by
    rw [first.pixel_drawn, hclear, Bool.false_xor]
  have hflag : (drawn x y 1 s).v.get 0xF = 0 := flag_drawn_of_not_collision (not_collision_of_clear hclear)
  have second : FullRowAtOrigin x y (drawn x y 1 s) := first.of_drawn hflag
  have hback : ∀ px py, pixel (drawn x y 1 (drawn x y 1 s)) px py = false := fun px py => by
    rw [second.pixel_drawn, hpixels, Bool.xor_self]
  have hcollides : Collision wrapTarget x y 1 (drawn x y 1 s) := second.collision (hpixels 0 0)
  exact ⟨_, _, first.exec_drw, hpixels, hflag, second.exec_drw, hback, flag_drawn_of_collision hcollides⟩

end Sys2Proof.Proofs
end

section
/-! PROOFS. The encoder and the decoder undo each other (30_encoding.md R74, R78, R80). -/

namespace Sys2Proof.Proofs

open Sys2Proof.Machine Sys2Proof.Statements

/-! ## The fields of the format `XYN` (R71, R72) -/

/-- The format `XYN` is the format `XK` with its byte made of a register and a nibble. -/
theorem formatXYN_eq_formatXK (op : Nibble) (x y : RegIdx) (n : Nibble) :
    formatXYN op x y n = formatXK op x (BitVec.ofFin (w := 4) y ++ n) := by
  rw [formatXYN, formatXK, BitVec.append_assoc, BitVec.cast_eq]

theorem formatXYN_eq_or (op : Nibble) (x y : RegIdx) (n : Nibble) :
    formatXYN op x y n = op.setWidth 16 <<< 12 ||| regAt 8 x ||| regAt 4 y ||| n.setWidth 16 := by
  have hlow : (BitVec.ofFin (w := 4) y ++ n).setWidth 16 = regAt 4 y ||| n.setWidth 16 := by
    rw [regAt_eq_shiftLeft]
    exact BitVec.setWidth_append_eq_shiftLeft_setWidth_or
  rw [formatXYN_eq_formatXK, formatXK_eq_or, hlow, BitVec.or_assoc _ (regAt 4 y)]

@[simp] theorem opField_formatXYN (op : Nibble) (x y : RegIdx) (n : Nibble) : opField (formatXYN op x y n) = op := by
  have hx := x.isLt
  have hy := y.isLt
  have hn := n.isLt
  apply BitVec.eq_of_toNat_eq
  rw [opField_toNat, formatXYN_toNat]
  omega

@[simp] theorem xField_formatXYN (op : Nibble) (x y : RegIdx) (n : Nibble) : xField (formatXYN op x y n) = x := by
  have hx := x.isLt
  have hy := y.isLt
  have hn := n.isLt
  apply Fin.ext
  rw [xField_val, formatXYN_toNat]
  omega

@[simp] theorem yField_formatXYN (op : Nibble) (x y : RegIdx) (n : Nibble) : yField (formatXYN op x y n) = y := by
  have hy := y.isLt
  have hn := n.isLt
  apply Fin.ext
  rw [yField_val, formatXYN_toNat]
  omega

@[simp] theorem nField_formatXYN (op : Nibble) (x y : RegIdx) (n : Nibble) : nField (formatXYN op x y n) = n := by
  have hn := n.isLt
  apply BitVec.eq_of_toNat_eq
  rw [nField_toNat, formatXYN_toNat]
  omega

/-! ## The encoding function of R80 -/

theorem encode_sneR (x y : RegIdx) : encode (.sneR x y) = 0x9000 ||| regAt 8 x ||| regAt 4 y :=
  (formatXYN_eq_or 0x9 x y 0).trans BitVec.or_zero

theorem encode_drw (x y : RegIdx) (n : Nibble) :
    encode (.drw x y n) = 0xD000 ||| regAt 8 x ||| regAt 4 y ||| n.setWidth 16 :=
  formatXYN_eq_or 0xD x y n

/-- Settles O3: each format is the OR of its fields, shifted to their places. -/
theorem encodingFunctionOfTheSpec : Obligations.EncodingFunctionOfTheSpec :=
  ⟨rfl, rfl, fun a => ⟨formatA_eq_or _ a, formatA_eq_or _ a, formatA_eq_or _ a⟩,
    fun x b => ⟨formatXK_eq_or _ x b, formatXK_eq_or _ x b, formatXK_eq_or _ x b, formatXK_eq_or _ x b,
      formatXK_eq_or _ x b⟩,
    fun x y n => ⟨encode_sneR x y, encode_drw x y n⟩⟩

/-! ## The words of `JP`, `SNE_R`, `RND` and `DRW` -/

/-- `1nnn` (R121). -/
theorem decode_jp (nnn : Addr12) : decode (0x1000 ||| nnn.setWidth 16) = .instr (.jp nnn) :=
  (decode_or_formatA (op := 0x1) (by decide) nnn).trans (by simp [decodeFamily])

/-- `Cxkk` (R143). -/
theorem decode_rnd (x : RegIdx) (kk : Byte) :
    decode (0xC000 ||| regAt 8 x ||| kk.setWidth 16) = .instr (.rnd x kk) :=
  (decode_or_formatXK (op := 0xC) (by decide) x kk).trans (by simp [decodeFamily])

/-- A word of the format `XYN` decodes by the family it is written with. -/
theorem decode_formatXYN {op : Nibble} (hop : op ≠ 0) (x y : RegIdx) (n : Nibble) :
    decode (formatXYN op x y n) = decodeFamily (formatXYN op x y n) :=
  decode_of_opField_ne_zero (by rwa [opField_formatXYN])

/-- `9xy0` (R125). -/
theorem decode_sneR (x y : RegIdx) : decode (0x9000 ||| regAt 8 x ||| regAt 4 y) = .instr (.sneR x y) := by
  rw [← encode_sneR]
  exact (decode_formatXYN (op := 0x9) (by decide) x y 0).trans (by simp [decodeFamily])

/-- `Dxyn` (R161). -/
theorem decode_drw (x y : RegIdx) (n : Nibble) :
    decode (0xD000 ||| regAt 8 x ||| regAt 4 y ||| n.setWidth 16) = .instr (.drw x y n) := by
  rw [← encode_drw]
  exact (decode_formatXYN (op := 0xD) (by decide) x y n).trans (by simp [decodeFamily])

/-! ## Decoding what was encoded -/

/-- Every operand is read back from its field (R71). -/
theorem decode_encode (i : Instr) : decode (encode i) = .instr i := by
  cases i with
  | cls => exact decode_cls
  | ret => exact decode_ret
  | jp nnn => exact (congrArg decode (formatA_eq_or _ nnn)).trans (decode_jp nnn)
  | call nnn => exact (congrArg decode (formatA_eq_or _ nnn)).trans (decode_call nnn)
  | se x kk => exact (congrArg decode (formatXK_eq_or _ x kk)).trans (decode_se x kk)
  | sne x kk => exact (congrArg decode (formatXK_eq_or _ x kk)).trans (decode_sne x kk)
  | ld x kk => exact (congrArg decode (formatXK_eq_or _ x kk)).trans (decode_ld x kk)
  | add x kk => exact (congrArg decode (formatXK_eq_or _ x kk)).trans (decode_add x kk)
  | sneR x y => exact (congrArg decode (encode_sneR x y)).trans (decode_sneR x y)
  | ldI nnn => exact (congrArg decode (formatA_eq_or _ nnn)).trans (decode_ldI nnn)
  | rnd x kk => exact (congrArg decode (formatXK_eq_or _ x kk)).trans (decode_rnd x kk)
  | drw x y n => exact (congrArg decode (encode_drw x y n)).trans (decode_drw x y n)

/-- The two bytes of a word, in front of others, decode as the word does (20_memory.md R54). -/
theorem decodeBytes_bytesOfWord {w : Word} {i : Instr} (h : decode w = .instr i) (rest : List Byte) :
    decodeBytes (bytesOfWord w ++ rest) = .ok (i, rest) := by
  simp [bytesOfWord, decodeBytes, h]

/-- Settles O1: the word's own fields give the operands back, and its two bytes give the word back. -/
theorem decodeAfterEncode : Obligations.DecodeAfterEncode := fun i =>
  ⟨decode_encode i, decodeBytes_bytesOfWord (decode_encode i)⟩

/-! ## What a word decodes to, row by row of the opcode map (R74, R75) -/

/-- The unknown rows of the opcode map. -/
def UnknownRow (w : Word) : Prop :=
  w.toNat / 4096 ∈ [0x5, 0x8, 0xB, 0xE, 0xF] ∨ (w.toNat / 4096 = 0 ∧ w ≠ 0x00E0 ∧ w ≠ 0x00EE) ∨
    (w.toNat / 4096 = 0x9 ∧ w.toNat % 16 ≠ 0)

/-- `MapRow w d`: by the opcode map the word `w` decodes to `d`. -/
inductive MapRow (w : Word) : Decoded → Prop
  | cls (h : w = 0x00E0) : MapRow w (.instr .cls)
  | ret (h : w = 0x00EE) : MapRow w (.instr .ret)
  | jp (h : w.toNat / 4096 = 0x1) : MapRow w (.instr (.jp (nnnField w)))
  | call (h : w.toNat / 4096 = 0x2) : MapRow w (.instr (.call (nnnField w)))
  | se (h : w.toNat / 4096 = 0x3) : MapRow w (.instr (.se (xField w) (kkField w)))
  | sne (h : w.toNat / 4096 = 0x4) : MapRow w (.instr (.sne (xField w) (kkField w)))
  | ld (h : w.toNat / 4096 = 0x6) : MapRow w (.instr (.ld (xField w) (kkField w)))
  | add (h : w.toNat / 4096 = 0x7) : MapRow w (.instr (.add (xField w) (kkField w)))
  | sneR (h : w.toNat / 4096 = 0x9) (hn : w.toNat % 16 = 0) : MapRow w (.instr (.sneR (xField w) (yField w)))
  | ldI (h : w.toNat / 4096 = 0xA) : MapRow w (.instr (.ldI (nnnField w)))
  | rnd (h : w.toNat / 4096 = 0xC) : MapRow w (.instr (.rnd (xField w) (kkField w)))
  | drw (h : w.toNat / 4096 = 0xD) : MapRow w (.instr (.drw (xField w) (yField w) (nField w)))
  | unknown (h : UnknownRow w) : MapRow w (.unknown w)

theorem nField_eq_zero_iff (w : Word) : nField w = 0 ↔ w.toNat % 16 = 0 := by
  rw [← nField_toNat, ← BitVec.toNat_inj]
  rfl

/-- A family from 1 up decodes by its row. -/
theorem mapRow_decodeFamily {w : Word} (h : w.toNat / 4096 ≠ 0) : MapRow w (decodeFamily w) := by
  have hw := w.isLt
  unfold decodeFamily
  simp only [opField_toNat, nField_eq_zero_iff]
  split
  case h_1 hop => exact .jp hop
  case h_2 hop => exact .call hop
  case h_3 hop => exact .se hop
  case h_4 hop => exact .sne hop
  case h_5 hop => exact .ld hop
  case h_6 hop => exact .add hop
  case h_7 hop =>
    split
    · exact .sneR hop ‹_›
    · exact .unknown (.inr (.inr ⟨hop, ‹_›⟩))
  case h_8 hop => exact .ldI hop
  case h_9 hop => exact .rnd hop
  case h_10 hop => exact .drw hop
  case h_11 =>
    refine .unknown (.inl ?_)
    simp only [imp_false] at *
    simp only [List.mem_cons, List.not_mem_nil, or_false]
    omega

/-- Every word stands in one row of the map, and decodes by it (R78). -/
theorem mapRow_decode (w : Word) : MapRow w (decode w) := by
  by_cases h : w.toNat / 4096 = 0
  · rw [decode_family_zero h]
    split
    · exact .cls ‹_›
    · split
      · exact .ret ‹_›
      · exact .unknown (.inr (.inl ⟨h, ‹_›, ‹_›⟩))
  · rw [decode_family h]
    exact mapRow_decodeFamily h

theorem mapRow_of_decode {w : Word} {d : Decoded} (h : decode w = d) : MapRow w d := h ▸ mapRow_decode w

/-! ## Encoding what was decoded -/

/-- A word of the format `A` is made of its own fields. -/
theorem formatA_nnnField {w : Word} {op : Nibble} (h : w.toNat / 4096 = op.toNat) : formatA op (nnnField w) = w := by
  apply BitVec.eq_of_toNat_eq
  rw [formatA_toNat, nnnField_toNat]
  omega

/-- A word of the format `XK` is made of its own fields. -/
theorem formatXK_fields {w : Word} {op : Nibble} (h : w.toNat / 4096 = op.toNat) :
    formatXK op (xField w) (kkField w) = w := by
  apply BitVec.eq_of_toNat_eq
  rw [formatXK_toNat, xField_val, kkField_toNat]
  omega

/-- A word of the format `XYN` is made of its own fields. -/
theorem formatXYN_fields {w : Word} {op n : Nibble} (h : w.toNat / 4096 = op.toNat) (hn : w.toNat % 16 = n.toNat) :
    formatXYN op (xField w) (yField w) n = w := by
  apply BitVec.eq_of_toNat_eq
  rw [formatXYN_toNat, xField_val, yField_val]
  omega

theorem encode_of_decode {w : Word} {i : Instr} (h : decode w = .instr i) : encode i = w := by
  cases mapRow_of_decode h with
  | cls hw => exact hw.symm
  | ret hw => exact hw.symm
  | jp hop => exact formatA_nnnField hop
  | call hop => exact formatA_nnnField hop
  | se hop => exact formatXK_fields hop
  | sne hop => exact formatXK_fields hop
  | ld hop => exact formatXK_fields hop
  | add hop => exact formatXK_fields hop
  | sneR hop hn => exact formatXYN_fields hop hn
  | ldI hop => exact formatA_nnnField hop
  | rnd hop => exact formatXK_fields hop
  | drw hop => exact formatXYN_fields hop (nField_toNat w).symm

theorem eq_of_decode_unknown {w u : Word} (h : decode w = .unknown u) : u = w := by
  cases mapRow_of_decode h with
  | unknown => rfl

/-- Settles O2: a word is made of the fields its instruction was read from. -/
theorem encodeAfterDecode : Obligations.EncodeAfterDecode := fun _ =>
  ⟨fun _ => encode_of_decode, fun _ => eq_of_decode_unknown⟩

/-! ## The unknown words (R75) -/

/-- An unknown row is no instruction's row. -/
theorem not_unknownRow_of_decode_instr {w : Word} {i : Instr} (h : decode w = .instr i) : ¬ UnknownRow w := by
  have hrow := mapRow_of_decode h
  unfold UnknownRow
  cases hrow with
  | cls hw => simp [hw]
  | ret hw => simp [hw]
  | sneR hop hn => simp [hop, hn]
  | jp hop => simp [hop]
  | call hop => simp [hop]
  | se hop => simp [hop]
  | sne hop => simp [hop]
  | ld hop => simp [hop]
  | add hop => simp [hop]
  | ldI hop => simp [hop]
  | rnd hop => simp [hop]
  | drw hop => simp [hop]

/-- Settles O4: an unknown word stands in one of the unknown rows, and an instruction's word in none of them. -/
theorem unknownWordsAreTheOpcodeMaps : Obligations.UnknownWordsAreTheOpcodeMaps := by
  refine fun w => ⟨fun h => ?_, fun hrow => ?_⟩
  · cases mapRow_of_decode h with
    | unknown hrow => exact hrow
  · cases h : decode w with
    | instr i => exact absurd hrow (not_unknownRow_of_decode_instr h)
    | unknown u => rw [eq_of_decode_unknown h]

end Sys2Proof.Proofs
end

section
/-! PROOFS. The opcode table and the decode table of the test vectors (30_encoding.md R81, 95_test_vectors.md 2.1). -/

namespace Sys2Proof.Proofs

open Sys2Proof.Machine Sys2Proof.Statements

/-! ## Which words a row selects -/

/-- The mask F000 leaves the family. -/
theorem formatA_and_mask (op : Nibble) (nnn : Addr12) : formatA op nnn &&& 0xF000 = formatA op 0 := by
  have hmask : (op ++ nnn) &&& (BitVec.allOnes 4 ++ 0#12) = op ++ 0#12 := by
    rw [BitVec.and_append, BitVec.and_allOnes, BitVec.and_zero]
  exact hmask

/-- The mask F00F leaves the family and the last digit. -/
theorem formatXYN_and_mask (op : Nibble) (x y : RegIdx) (n : Nibble) :
    formatXYN op x y n &&& 0xF00F = formatXYN op 0 0 n := by
  have hmask : (op ++ BitVec.ofFin (w := 4) x ++ BitVec.ofFin (w := 4) y ++ n) &&&
      (BitVec.allOnes 4 ++ 0#4 ++ 0#4 ++ BitVec.allOnes 4) = op ++ 0#4 ++ 0#4 ++ n := by
    simp only [BitVec.and_append, BitVec.and_allOnes, BitVec.and_zero]
  exact hmask

theorem and_family_mask_toNat (w : Word) : (w &&& 0xF000).toNat = w.toNat / 4096 * 4096 := by
  have hw : formatA (opField w) (nnnField w) = w := formatA_nnnField (opField_toNat w).symm
  calc (w &&& 0xF000).toNat = (formatA (opField w) (nnnField w) &&& 0xF000).toNat := by rw [hw]
    _ = (opField w).toNat * 4096 := by rw [formatA_and_mask, formatA_toNat, show (0 : Addr12).toNat = 0 from rfl, Nat.add_zero]
    _ = w.toNat / 4096 * 4096 := by rw [opField_toNat]

theorem and_sneR_mask_toNat (w : Word) : (w &&& 0xF00F).toNat = w.toNat / 4096 * 4096 + w.toNat % 16 := by
  have hw : formatXYN (opField w) (xField w) (yField w) (nField w) = w :=
    formatXYN_fields (opField_toNat w).symm (nField_toNat w).symm
  calc (w &&& 0xF00F).toNat = (formatXYN (opField w) (xField w) (yField w) (nField w) &&& 0xF00F).toNat := by rw [hw]
    _ = (opField w).toNat * 4096 + (nField w).toNat := by rw [formatXYN_and_mask, formatXYN_toNat]; simp
    _ = w.toNat / 4096 * 4096 + w.toNat % 16 := by rw [opField_toNat, nField_toNat]

/-- A row of one word selects that word. -/
theorem selects_literal (m : String) (bits w : Word) : OpcodeRow.selects ⟨m, bits, 0xFFFF#16⟩ w = true ↔ w = bits := by
  rw [OpcodeRow.selects, show w &&& 0xFFFF#16 = w from BitVec.and_allOnes, beq_iff_eq]

/-- A row of a family selects the words of the family. -/
theorem selects_family (m : String) {bits : Word} (w : Word) (hbits : bits.toNat % 4096 = 0) :
    OpcodeRow.selects ⟨m, bits, 0xF000#16⟩ w = true ↔ w.toNat / 4096 = bits.toNat / 4096 := by
  have hselects : OpcodeRow.selects ⟨m, bits, 0xF000#16⟩ w = true ↔ w &&& 0xF000 = bits := beq_iff_eq
  rw [hselects, ← BitVec.toNat_inj, and_family_mask_toNat]
  omega

/-- The row of `SNE_R` selects the words of its family whose last digit is 0. -/
theorem selects_sneR (m : String) (w : Word) :
    OpcodeRow.selects ⟨m, 0x9000#16, 0xF00F#16⟩ w = true ↔ w.toNat / 4096 = 0x9 ∧ w.toNat % 16 = 0 := by
  have hselects : OpcodeRow.selects ⟨m, 0x9000#16, 0xF00F#16⟩ w = true ↔ w &&& 0xF00F = 0x9000#16 := beq_iff_eq
  rw [hselects, ← BitVec.toNat_inj, and_sneR_mask_toNat, BitVec.toNat_ofNat]
  omega

/-! ## The rows that a word selects -/

/-- The rows of a family from 1 up, for words with this last digit: which of them select is a matter of these two numbers. -/
def rowsOfFamily (family digit : Nat) : List String :=
  ((opcodeTable.drop 2).filter fun r => family == r.bits.toNat / 4096 && (r.mask == 0xF000 || digit == 0)).map (·.mnemonic)

theorem rowsSelected_of_family {w : Word} (h : w.toNat / 4096 ≠ 0) :
    rowsSelected w = rowsOfFamily (w.toNat / 4096) (w.toNat % 16) := by
  have hcls : w ≠ 0x00E0#16 := fun hw => h (by rw [hw]; rfl)
  have hret : w ≠ 0x00EE#16 := fun hw => h (by rw [hw]; rfl)
  have hfilter : opcodeTable.filter (·.selects w) = (opcodeTable.drop 2).filter (·.selects w) := by
    simp [opcodeTable, List.filter_cons, selects_literal, hcls, hret]
  rw [rowsSelected, rowsOfFamily, hfilter]
  refine congrArg _ (List.filter_congr fun r hr => ?_)
  rw [Bool.eq_iff_iff]
  simp only [opcodeTable, List.drop_succ_cons, List.drop_zero, List.mem_cons, List.not_mem_nil, or_false] at hr
  rcases hr with rfl | rfl | rfl | rfl | rfl | rfl | rfl | rfl | rfl | rfl <;>
    simp [selects_family, selects_sneR]

/-- The row that a word's place in the opcode map names is the one it selects. -/
theorem rowsSelected_of_decode_instr {w : Word} {i : Instr} (h : decode w = .instr i) : rowsSelected w = [i.mnemonic] := by
  cases mapRow_of_decode h with
  | cls hw => rw [hw]; rfl
  | ret hw => rw [hw]; rfl
  | jp hop => rw [rowsSelected_of_family (by omega), hop]; rfl
  | call hop => rw [rowsSelected_of_family (by omega), hop]; rfl
  | se hop => rw [rowsSelected_of_family (by omega), hop]; rfl
  | sne hop => rw [rowsSelected_of_family (by omega), hop]; rfl
  | ld hop => rw [rowsSelected_of_family (by omega), hop]; rfl
  | add hop => rw [rowsSelected_of_family (by omega), hop]; rfl
  | sneR hop hn => rw [rowsSelected_of_family (by omega), hop, hn]; rfl
  | ldI hop => rw [rowsSelected_of_family (by omega), hop]; rfl
  | rnd hop => rw [rowsSelected_of_family (by omega), hop]; rfl
  | drw hop => rw [rowsSelected_of_family (by omega), hop]; rfl

/-- No row of a family from 1 up selects a word of an unknown row of the map. -/
theorem rowsOfFamily_unknown {family digit : Nat}
    (h : family ∈ [0x5, 0x8, 0xB, 0xE, 0xF] ∨ (family = 0x9 ∧ digit ≠ 0)) : rowsOfFamily family digit = [] := by
  rcases h with h | ⟨rfl, hdigit⟩
  · simp only [List.mem_cons, List.not_mem_nil, or_false] at h
    rcases h with rfl | rfl | rfl | rfl | rfl <;> rfl
  · simp [rowsOfFamily, opcodeTable, hdigit]

/-- An unknown word selects no row. -/
theorem rowsSelected_of_unknownRow {w : Word} (h : UnknownRow w) : rowsSelected w = [] := by
  rcases h with h | ⟨hfamily, hcls, hret⟩ | ⟨hfamily, hdigit⟩
  · rw [rowsSelected_of_family (by rintro h0; simp [h0] at h), rowsOfFamily_unknown (.inl h)]
  · have hcls' : w ≠ 0x00E0#16 := hcls
    have hret' : w ≠ 0x00EE#16 := hret
    simp [rowsSelected, opcodeTable, selects_literal, selects_family, selects_sneR, hfamily, hcls', hret']
  · rw [rowsSelected_of_family (by omega), rowsOfFamily_unknown (.inr ⟨hfamily, hdigit⟩)]

/-- Settles O5: a word's row in the opcode map says which rows of the table it selects. -/
theorem opcodeTableAgreesWithDecoder : Obligations.OpcodeTableAgreesWithDecoder := by
  refine fun w => ⟨fun i => rowsSelected_of_decode_instr, fun u h => ?_⟩
  cases mapRow_of_decode h with
  | unknown hrow => exact rowsSelected_of_unknownRow hrow

/-! ## The decode table of the test vectors -/

/-- Settles O6: each word of an instruction is that instruction's encoding, and the unknown words are evaluated. -/
theorem decodeTableOfTheTestVectors : Obligations.DecodeTableOfTheTestVectors :=
  ⟨by decide, decode_encode .cls, decode_encode .ret, decode_encode (.jp 0x234), decode_encode (.call 0xFFF),
    decode_encode (.se 0xF 0x01), decode_encode (.sne 0x0 0x00), decode_encode (.ld 0xA 0x7F), decode_encode (.add 0xE 0xFF),
    decode_encode (.sneR 0x1 0x2), decode_encode (.sneR 0xF 0xF), decode_encode (.ldI 0x123), decode_encode (.rnd 0x5 0xA5),
    decode_encode (.drw 0xA 0xB 15), decode_encode (.drw 0x0 0x0 0)⟩

end Sys2Proof.Proofs
end

section
/-! PROOFS. The operand checks (30_encoding.md R79): an instruction as written is the one that was checked. -/

namespace Sys2Proof.Proofs

open Sys2Proof.Machine Sys2Proof.Statements

/-! ## Each check accepts exactly the numbers of its type -/

theorem checkReg_eq_ok_iff {x : Nat} {r : RegIdx} : checkReg x = .ok r ↔ r.val = x := by
  refine ⟨fun h => ?_, fun h => h ▸ checkReg_val r⟩
  unfold checkReg at h
  split at h
  · cases h
    rfl
  · cases h

theorem checkByte_eq_ok_iff {b : Nat} {c : Byte} : checkByte b = .ok c ↔ c.toNat = b := by
  refine ⟨fun h => ?_, fun h => h ▸ checkByte_toNat c⟩
  unfold checkByte at h
  split at h
  · cases h
    exact Nat.mod_eq_of_lt ‹_›
  · cases h

theorem checkAddr_eq_ok_iff {a : Nat} {c : Addr12} : checkAddr a = .ok c ↔ c.toNat = a := by
  refine ⟨fun h => ?_, fun h => h ▸ checkAddr_toNat c⟩
  unfold checkAddr at h
  split at h
  · cases h
    exact Nat.mod_eq_of_lt ‹_›
  · cases h

theorem checkNibble_eq_ok_iff {n : Nat} {c : Nibble} : checkNibble n = .ok c ↔ c.toNat = n := by
  refine ⟨fun h => ?_, fun h => h ▸ checkNibble_toNat c⟩
  unfold checkNibble at h
  split at h
  · cases h
    exact Nat.mod_eq_of_lt ‹_›
  · cases h

theorem checkA_eq_ok {f : Addr12 → Instr} {a : Nat} {i : Instr} (h : checkA f a = .ok i) :
    ∃ c : Addr12, c.toNat = a ∧ f c = i := by
  unfold checkA at h
  split at h
  · cases h
  · next c hc => exact ⟨c, checkAddr_eq_ok_iff.1 hc, Except.ok.inj h⟩

theorem checkXK_eq_ok {f : RegIdx → Byte → Instr} {x b : Nat} {i : Instr} (h : checkXK f x b = .ok i) :
    ∃ (r : RegIdx) (c : Byte), r.val = x ∧ c.toNat = b ∧ f r c = i := by
  unfold checkXK at h
  split at h
  · cases h
  · next r hr =>
    split at h
    · cases h
    · next c hc => exact ⟨r, c, checkReg_eq_ok_iff.1 hr, checkByte_eq_ok_iff.1 hc, Except.ok.inj h⟩

theorem checkXY_eq_ok {f : RegIdx → RegIdx → Except OperandError Instr} {x y : Nat} {i : Instr}
    (h : checkXY f x y = .ok i) : ∃ r r' : RegIdx, r.val = x ∧ r'.val = y ∧ f r r' = .ok i := by
  unfold checkXY at h
  split at h
  · cases h
  · next r hr =>
    split at h
    · cases h
    · next r' hr' => exact ⟨r, r', checkReg_eq_ok_iff.1 hr, checkReg_eq_ok_iff.1 hr', h⟩

/-! ## The whole check -/

theorem check_source (i : Instr) : i.source.check = .ok i := by
  cases i with
  | cls => exact Laws.SourceCheck.cls
  | ret => exact Laws.SourceCheck.ret
  | jp nnn => exact Laws.SourceCheck.jp nnn
  | call nnn => exact Laws.SourceCheck.call nnn
  | se x kk => exact Laws.SourceCheck.se x kk
  | sne x kk => exact Laws.SourceCheck.sne x kk
  | ld x kk => exact Laws.SourceCheck.ld x kk
  | add x kk => exact Laws.SourceCheck.add x kk
  | sneR x y => exact Laws.SourceCheck.sneR x y
  | ldI nnn => exact Laws.SourceCheck.ldI nnn
  | rnd x kk => exact Laws.SourceCheck.rnd x kk
  | drw x y n => exact Laws.SourceCheck.drw x y n

/-- An accepted instruction has the numbers that were written. -/
theorem source_of_check {src : Source} {i : Instr} (h : src.check = .ok i) : i.source = src := by
  cases src with
  | cls => cases h; rfl
  | ret => cases h; rfl
  | jp a => obtain ⟨c, rfl, rfl⟩ := checkA_eq_ok h; rfl
  | call a => obtain ⟨c, rfl, rfl⟩ := checkA_eq_ok h; rfl
  | ldI a => obtain ⟨c, rfl, rfl⟩ := checkA_eq_ok h; rfl
  | se x b => obtain ⟨r, c, rfl, rfl, rfl⟩ := checkXK_eq_ok h; rfl
  | sne x b => obtain ⟨r, c, rfl, rfl, rfl⟩ := checkXK_eq_ok h; rfl
  | ld x b => obtain ⟨r, c, rfl, rfl, rfl⟩ := checkXK_eq_ok h; rfl
  | add x b => obtain ⟨r, c, rfl, rfl, rfl⟩ := checkXK_eq_ok h; rfl
  | rnd x b => obtain ⟨r, c, rfl, rfl, rfl⟩ := checkXK_eq_ok h; rfl
  | sneR x y => obtain ⟨r, r', rfl, rfl, hf⟩ := checkXY_eq_ok h; cases hf; rfl
  | drw x y n =>
    obtain ⟨r, r', rfl, rfl, hf⟩ := checkXY_eq_ok h
    split at hf
    · cases hf
    · next c hc =>
      cases hf
      rw [← checkNibble_eq_ok_iff.1 hc]
      rfl

theorem check_eq_ok_iff {src : Source} {i : Instr} : src.check = .ok i ↔ i.source = src :=
  ⟨source_of_check, fun h => h ▸ check_source i⟩

/-! ## The ranges of R79 are the ranges of the operand types -/

theorem exists_reg {x : Nat} (h : x ≤ 0xF) : ∃ r : RegIdx, r.val = x := ⟨⟨x, Nat.lt_succ_of_le h⟩, rfl⟩

theorem exists_byte {b : Nat} (h : b ≤ 0xFF) : ∃ c : Byte, c.toNat = b := ⟨BitVec.ofNatLT b (Nat.lt_succ_of_le h), rfl⟩

theorem exists_addr {a : Nat} (h : a ≤ 0xFFF) : ∃ c : Addr12, c.toNat = a := ⟨BitVec.ofNatLT a (Nat.lt_succ_of_le h), rfl⟩

theorem exists_nibble {n : Nat} (h : n ≤ 0xF) : ∃ c : Nibble, c.toNat = n := ⟨BitVec.ofNatLT n (Nat.lt_succ_of_le h), rfl⟩

theorem reg_le (x : RegIdx) : x.val ≤ 0xF := Nat.le_of_lt_succ x.isLt

theorem byte_le (b : Byte) : b.toNat ≤ 0xFF := Nat.le_of_lt_succ b.isLt

theorem addr_le (a : Addr12) : a.toNat ≤ 0xFFF := Nat.le_of_lt_succ a.isLt

theorem nibble_le (n : Nibble) : n.toNat ≤ 0xF := Nat.le_of_lt_succ n.isLt

/-- A register and a byte in their ranges are the operands of an instruction. -/
theorem exists_source_of_xk {f : RegIdx → Byte → Instr} {g : Nat → Nat → Source}
    (hfg : ∀ r c, (f r c).source = g r.val c.toNat) {x b : Nat} (h : x ≤ 0xF ∧ b ≤ 0xFF) :
    ∃ i : Instr, i.source = g x b := by
  obtain ⟨r, rfl⟩ := exists_reg h.1
  obtain ⟨c, rfl⟩ := exists_byte h.2
  exact ⟨f r c, hfg r c⟩

/-- An address in its range is the operand of an instruction. -/
theorem exists_source_of_a {f : Addr12 → Instr} {g : Nat → Source} (hfg : ∀ c, (f c).source = g c.toNat) {a : Nat}
    (h : a ≤ 0xFFF) : ∃ i : Instr, i.source = g a := by
  obtain ⟨c, rfl⟩ := exists_addr h
  exact ⟨f c, hfg c⟩

/-- Settles O7: the accepted sources are the sources of instructions, whose operands are in their ranges by their types. -/
theorem operandsAreNeverTruncated : Obligations.OperandsAreNeverTruncated := by
  refine fun src => ⟨fun i => source_of_check, ?_⟩
  simp only [check_eq_ok_iff]
  constructor
  · rintro ⟨i, rfl⟩
    cases i with
    | cls => trivial
    | ret => trivial
    | jp nnn => exact addr_le nnn
    | call nnn => exact addr_le nnn
    | ldI nnn => exact addr_le nnn
    | se x kk => exact ⟨reg_le x, byte_le kk⟩
    | sne x kk => exact ⟨reg_le x, byte_le kk⟩
    | ld x kk => exact ⟨reg_le x, byte_le kk⟩
    | add x kk => exact ⟨reg_le x, byte_le kk⟩
    | rnd x kk => exact ⟨reg_le x, byte_le kk⟩
    | sneR x y => exact ⟨reg_le x, reg_le y⟩
    | drw x y n => exact ⟨reg_le x, reg_le y, nibble_le n⟩
  · intro h
    cases src with
    | cls => exact ⟨.cls, rfl⟩
    | ret => exact ⟨.ret, rfl⟩
    | jp a => exact exists_source_of_a (f := .jp) (fun _ => rfl) h
    | call a => exact exists_source_of_a (f := .call) (fun _ => rfl) h
    | ldI a => exact exists_source_of_a (f := .ldI) (fun _ => rfl) h
    | se x b => exact exists_source_of_xk (f := .se) (fun _ _ => rfl) h
    | sne x b => exact exists_source_of_xk (f := .sne) (fun _ _ => rfl) h
    | ld x b => exact exists_source_of_xk (f := .ld) (fun _ _ => rfl) h
    | add x b => exact exists_source_of_xk (f := .add) (fun _ _ => rfl) h
    | rnd x b => exact exists_source_of_xk (f := .rnd) (fun _ _ => rfl) h
    | sneR x y =>
      obtain ⟨r, rfl⟩ := exists_reg h.1
      obtain ⟨r', rfl⟩ := exists_reg h.2
      exact ⟨.sneR r r', rfl⟩
    | drw x y n =>
      obtain ⟨hx, hy, hn⟩ := h
      obtain ⟨r, rfl⟩ := exists_reg hx
      obtain ⟨r', rfl⟩ := exists_reg hy
      obtain ⟨c, rfl⟩ := exists_nibble hn
      exact ⟨.drw r r' c, rfl⟩

end Sys2Proof.Proofs
end

section
/-! PROOFS. What a step fetches, and everything it can answer (40_step_engine.md R101 to R109, 60_exceptions.md R201 to R205). -/

namespace Sys2Proof.Proofs

open Sys2Proof.Machine Sys2Proof.Statements

/-! ## The fetch -/

theorem fetchWord_eq_ok_iff {s : State} {w : Word} : s.fetchWord = .ok w ↔ Fetches s w := by
  refine ⟨fun h => ?_, fetchWord_of_fetches⟩
  rcases s.fetchWord_cases with ⟨hvalid, hword⟩ | ⟨-, hfault⟩ | ⟨-, hfault⟩
  · rw [hword] at h
    cases h
    exact ⟨hvalid, (wordOfBytes_toNat _ _).symm⟩
  · rw [hfault] at h
    cases h
  · rw [hfault] at h
    cases h

theorem stepWith_at_last (rand : Byte) {s : State} (h : s.pc.toNat = 4095) :
    stepWith rand s = .fault (.addressingViolation 4096 s.pc .fetch) := by
  rw [stepWith_of_fetch_error rand (s.fetchWord_last (by rw [h])), h]

theorem stepWith_outside (rand : Byte) {s : State} (h : 4096 ≤ s.pc.toNat) :
    stepWith rand s = .fault (.addressingViolation s.pc.toNat s.pc .fetch) :=
  stepWith_of_fetch_error rand (s.fetchWord_outside (Nat.not_lt.2 h))

/-- Settles O10: a fetch answers the word of the two bytes, or faults at the first address that is not valid. -/
theorem fetchReadsBigEndianWordOrFaults : Obligations.FetchReadsBigEndianWordOrFaults := fun _ =>
  ⟨fun _ => fetchWord_eq_ok_iff, fun h rand => stepWith_at_last rand h, fun h rand => stepWith_outside rand h⟩

/-- Where a step starts: at a fetched word, at the last address, or outside Memory. -/
theorem fetches_cases (s : State) : (∃ w, Fetches s w) ∨ s.pc.toNat = 4095 ∨ 4096 ≤ s.pc.toNat := by
  rcases s.fetchWord_cases with ⟨-, hword⟩ | ⟨hlast, -⟩ | ⟨houtside, -⟩
  · exact .inl ⟨_, fetchWord_eq_ok_iff.1 hword⟩
  · exact .inr (.inl (Nat.succ.inj hlast))
  · exact .inr (.inr (Nat.not_lt.1 houtside))

/-- Settles O8: the fetched word's instruction runs in the fetch-advanced state. -/
theorem stepRunsDecodedInstruction : Obligations.StepRunsDecodedInstruction := fun s _ _ hfetch hdecode =>
  ⟨fun rand => stepWith_of_fetches_instr rand hfetch hdecode, stepWith_of_fetches_instr (Config.randByte s.tick) hfetch hdecode⟩

/-! ## Everything an operation can answer -/

/-- `Fatal s d f`: from the fetch-advanced state `s` the operation `d` raises `f` (R122, 43_display.md R162). -/
inductive Fatal (s : State) : Decoded → Fault → Prop
  | call (nnn : Addr12) (h : s.stack.length = 16) : Fatal s (.instr (.call nnn)) (.stackOverflow s.fetchAddr nnn)
  | drw (x y : RegIdx) (n : Nibble) (r : Nat) (hr : r < n.toNat) (hbad : 4096 ≤ s.i.toNat + r)
      (hleast : ∀ q, q < r → s.i.toNat + q < 4096) :
      Fatal s (.instr (.drw x y n)) (.addressingViolation (s.i.toNat + r) s.fetchAddr .draw)

theorem execDecoded_of_fatal {s : State} {d : Decoded} {f : Fault} (h : Fatal s d f) : execDecoded d s = .fault f := by
  cases h with
  | call nnn h =>
    rcases execCall_cases nnn s with ⟨-, hfull⟩ | ⟨hne, -⟩
    · exact hfull
    · exact absurd h hne
  | drw x y n r hr hbad hleast => exact drwWith_invalid params x y n s r hr (Nat.not_lt.2 hbad) hleast

/-- An operation leaves a next state or raises a fatal condition, and is not refused. -/
theorem execDecoded_cases (d : Decoded) (s : State) :
    (∃ t, execDecoded d s = .next t) ∨ ∃ f, Fatal s d f ∧ execDecoded d s = .fault f := by
  cases d with
  | unknown w => exact .inl ⟨_, rfl⟩
  | instr i =>
    cases i with
    | ret =>
      rcases execRet_cases s with ⟨-, h⟩ | ⟨st, top, -, h⟩
      · exact .inl ⟨_, h⟩
      · exact .inl ⟨_, h⟩
    | call nnn =>
      rcases execCall_cases nnn s with ⟨hfull, h⟩ | ⟨-, h⟩
      · exact .inr ⟨_, .call nnn hfull, h⟩
      · exact .inl ⟨_, h⟩
    | drw x y n =>
      rcases drw_rows_cases s.i.toNat n.toNat with hrows | ⟨r, hr, hbad, hleast⟩
      · exact .inl ⟨_, drwWith_valid params x y n s hrows⟩
      · exact .inr ⟨_, .drw x y n r hr (Nat.not_lt.1 hbad) hleast, drwWith_invalid params x y n s r hr hbad hleast⟩
    | cls => exact .inl ⟨_, rfl⟩
    | jp nnn => exact .inl ⟨_, rfl⟩
    | se x kk => exact .inl ⟨_, rfl⟩
    | sne x kk => exact .inl ⟨_, rfl⟩
    | ld x kk => exact .inl ⟨_, rfl⟩
    | add x kk => exact .inl ⟨_, rfl⟩
    | sneR x y => exact .inl ⟨_, rfl⟩
    | ldI nnn => exact .inl ⟨_, rfl⟩
    | rnd x kk => exact .inl ⟨_, rfl⟩

theorem execDecoded_eq_fault_iff {s : State} {d : Decoded} {f : Fault} : execDecoded d s = .fault f ↔ Fatal s d f := by
  refine ⟨fun h => ?_, execDecoded_of_fatal⟩
  rcases execDecoded_cases d s with ⟨t, hnext⟩ | ⟨f', hfatal, hfault⟩
  · rw [hnext] at h
    cases h
  · rw [hfault] at h
    cases h
    exact hfatal

/-- Settles O11: a fetch answers a word or a fault, and no operation is refused. -/
theorem stepIsNeverRefused : Obligations.StepIsNeverRefused := by
  have hnever : ∀ (rand : Byte) (s : State) (r : Refusal), stepWith rand s ≠ .refused r := by
    intro rand s r h
    rcases stepWith_cases rand s with ⟨f, -, hstep⟩ | ⟨w, -, hstep⟩
    · cases hstep.symm.trans h
    · rcases execDecoded_cases (decode w) (s.beginStep rand) with ⟨t, hexec⟩ | ⟨f, -, hexec⟩
      · cases (hstep.trans hexec).symm.trans h
      · cases (hstep.trans hexec).symm.trans h
  exact fun rand s r => ⟨hnever rand s r, hnever _ s r⟩

/-! ## The fatal conditions -/

theorem fatal_advanced_iff {s : State} {rand : Byte} {d : Decoded} {f : Fault} :
    Fatal (advanced s rand) d f ↔
      (∃ nnn, d = .instr (.call nnn) ∧ s.stack.length = 16 ∧ f = .stackOverflow s.pc nnn) ∨
      (∃ x y n r, d = .instr (.drw x y n) ∧ r < n.toNat ∧ 4096 ≤ s.i.toNat + r ∧
        (∀ q, q < r → s.i.toNat + q < 4096) ∧ f = .addressingViolation (s.i.toNat + r) s.pc .draw) := by
  rw [← fetchAddr_advanced s rand]
  constructor
  · rintro (⟨nnn, h⟩ | ⟨x, y, n, r, hr, hbad, hleast⟩)
    · exact .inl ⟨nnn, rfl, h, rfl⟩
    · exact .inr ⟨x, y, n, r, rfl, hr, hbad, hleast, rfl⟩
  · rintro (⟨nnn, rfl, h, rfl⟩ | ⟨x, y, n, r, rfl, hr, hbad, hleast, rfl⟩)
    · exact .call nnn h
    · exact .drw x y n r hr hbad hleast

/-- Settles O12: the fetch's two faults, and the two of the operations. -/
theorem fatalConditionsExactly : Obligations.FatalConditionsExactly := by
  refine fun rand s f => ⟨fun h => ?_, ?_⟩
  · rcases fetches_cases s with ⟨w, hfetch⟩ | hlast | houtside
    · rw [stepWith_of_fetches rand hfetch, execDecoded_eq_fault_iff, fatal_advanced_iff] at h
      exact .inr (.inr ⟨w, hfetch, h⟩)
    · rw [stepWith_at_last rand hlast] at h
      cases h
      exact .inr (.inl ⟨hlast, rfl⟩)
    · rw [stepWith_outside rand houtside] at h
      cases h
      exact .inl ⟨houtside, rfl⟩
  · rintro (⟨houtside, rfl⟩ | ⟨hlast, rfl⟩ | ⟨w, hfetch, hfatal⟩)
    · exact stepWith_outside rand houtside
    · exact stepWith_at_last rand hlast
    · rw [stepWith_of_fetches rand hfetch, execDecoded_eq_fault_iff, fatal_advanced_iff]
      exact hfatal

theorem stepPort_of_fault {rand : Byte} {s : State} {f : Fault} (h : stepWith rand s = .fault f) :
    stepPort rand s = (s, .fault f) := by
  rw [stepPort, h]

/-- No fatal condition depends on the random byte (R109). -/
theorem stepWith_fault_any_rand {rand : Byte} {s : State} {f : Fault} (h : stepWith rand s = .fault f) (rand' : Byte) :
    stepWith rand' s = .fault f :=
  (fatalConditionsExactly rand' s f).2 ((fatalConditionsExactly rand s f).1 h)

/-- Settles O13: the port answers the state of before, and the fatal conditions do not name the random byte. -/
theorem fatalStepChangesNothingAndRepeats : Obligations.FatalStepChangesNothingAndRepeats := fun _ _ _ h =>
  ⟨stepPort_of_fault h, stepWith_fault_any_rand h⟩

end Sys2Proof.Proofs
end

section
/-! PROOFS. What every step leaves and what it changes (40_step_engine.md R105, R107; 10_state.md R22 to R30): case analyses over `Effect`. -/

namespace Sys2Proof.Proofs

open Sys2Proof.Machine Sys2Proof.Statements

/-- A step that answers a next state fetched a word and had its effect on the fetch-advanced state. -/
theorem effect_of_stepWith {rand : Byte} {s t : State} (h : stepWith rand s = .next t) :
    ∃ w, Fetches s w ∧ Effect (advanced s rand) (decode w) t := by
  obtain ⟨w, hword, heffect⟩ := stepWith_next h
  exact ⟨w, fetchWord_eq_ok_iff.1 hword, heffect⟩

theorem effect_of_fetches {rand : Byte} {s t : State} {w : Word} (hfetch : Fetches s w) (h : stepWith rand s = .next t) :
    Effect (advanced s rand) (decode w) t :=
  effect_of_execDecoded ((stepWith_of_fetches rand hfetch).symm.trans h)

/-- Every effect is one that its operation has. -/
theorem execDecoded_of_effect {s t : State} {d : Decoded} (h : Effect s d t) : execDecoded d s = .next t := by
  cases h with
  | retEmpty h => exact exec_ret_empty h
  | ret st top h => exact exec_ret_concat h
  | call nnn h =>
    rcases execCall_cases nnn s with ⟨hfull, -⟩ | ⟨-, hnext⟩
    · exact absurd hfull h
    · exact hnext
  | drw x y n canvas h hc =>
    rw [hc]
    exact drwWith_valid params x y n s h
  | cls => rfl
  | jp nnn => rfl
  | se x kk => rfl
  | sne x kk => rfl
  | ld x kk => rfl
  | add x kk => rfl
  | sneR x y => rfl
  | ldI nnn => rfl
  | rnd x kk => rfl
  | unknown w => rfl

/-! ## The fetch-advanced state, field by field (R102) -/

section
variable (s : State) (rand : Byte)

@[simp] theorem advanced_mem : (advanced s rand).mem = s.mem := rfl
@[simp] theorem advanced_v : (advanced s rand).v = s.v := rfl
@[simp] theorem advanced_i : (advanced s rand).i = s.i := rfl
@[simp] theorem advanced_pc : (advanced s rand).pc = s.pc + 2 := rfl
@[simp] theorem advanced_stack : (advanced s rand).stack = s.stack := rfl
@[simp] theorem advanced_disp : (advanced s rand).disp = s.disp := rfl
@[simp] theorem advanced_collisionC : (advanced s rand).collisionC = s.collisionC := rfl
@[simp] theorem advanced_events : (advanced s rand).events = [] := rfl

end

/-! ## The random byte -/

theorem skipIf_with_rand (s : State) (c : Bool) (rand : Byte) :
    { s.skipIf c with rand := rand } = State.skipIf { s with rand := rand } c := by
  rw [skipIf_eq_pc_ite, skipIf_eq_pc_ite]

/-- Any effect but `RND`'s is there with every other random byte, which it leaves in its field. -/
theorem effect_with_rand {s t : State} {d : Decoded} (h : Effect s d t) (hrnd : ∀ x kk, d ≠ .instr (.rnd x kk)) (rand : Byte) :
    Effect { s with rand := rand } d { t with rand := rand } := by
  cases h with
  | rnd x kk => exact absurd rfl (hrnd x kk)
  | se x kk =>
    rw [skipIf_with_rand]
    exact .se x kk
  | sne x kk =>
    rw [skipIf_with_rand]
    exact .sne x kk
  | cls => exact .cls
  | retEmpty h => exact .retEmpty h
  | ret st top h => exact .ret st top h
  | jp nnn => exact .jp nnn
  | call nnn h => exact .call nnn h
  | ld x kk => exact .ld x kk
  | add x kk => exact .add x kk
  | sneR x y => exact .sneR x y
  | ldI nnn => exact .ldI nnn
  | drw x y n canvas h hc => exact .drw x y n canvas h hc
  | unknown w => exact .unknown w

/-- Settles O14: the fetch does not see the random byte, and no effect but `RND`'s does. -/
theorem randomByteReachesOnlyRnd : Obligations.RandomByteReachesOnlyRnd := by
  intro s hrnd rand rand' t h
  obtain ⟨w, hfetch, heffect⟩ := effect_of_stepWith h
  rw [stepWith_of_fetches rand' hfetch]
  exact execDecoded_of_effect (effect_with_rand heffect (hrnd w hfetch) rand')

/-! ## Skips -/

@[simp] theorem skipIf_v (s : State) (c : Bool) : (s.skipIf c).v = s.v := by rw [skipIf_eq_pc_ite]
@[simp] theorem skipIf_mem (s : State) (c : Bool) : (s.skipIf c).mem = s.mem := by rw [skipIf_eq_pc_ite]
@[simp] theorem skipIf_i (s : State) (c : Bool) : (s.skipIf c).i = s.i := by rw [skipIf_eq_pc_ite]
@[simp] theorem skipIf_stack (s : State) (c : Bool) : (s.skipIf c).stack = s.stack := by rw [skipIf_eq_pc_ite]
@[simp] theorem skipIf_disp (s : State) (c : Bool) : (s.skipIf c).disp = s.disp := by rw [skipIf_eq_pc_ite]
@[simp] theorem skipIf_collisionC (s : State) (c : Bool) : (s.skipIf c).collisionC = s.collisionC := by rw [skipIf_eq_pc_ite]
@[simp] theorem skipIf_events (s : State) (c : Bool) : (s.skipIf c).events = s.events := by rw [skipIf_eq_pc_ite]
@[simp] theorem skipIf_pc (s : State) (c : Bool) : (s.skipIf c).pc = if c then s.pc + 2 else s.pc := by rw [skipIf_eq_pc_ite]

/-! ## What no operation, or only some, can change -/

theorem effect_mem {s t : State} {d : Decoded} (h : Effect s d t) : t.mem = s.mem := by
  cases h <;> simp

theorem effect_collisionC {s t : State} {d : Decoded} (h : Effect s d t) : t.collisionC = s.collisionC := by
  cases h <;> simp

theorem effect_i {s t : State} {d : Decoded} (h : Effect s d t) :
    t.i = s.i ∨ ∃ nnn, d = .instr (.ldI nnn) ∧ t.i = zext16 nnn := by
  cases h <;> simp

theorem effect_stack {s t : State} {d : Decoded} (h : Effect s d t) :
    t.stack = s.stack ∨ (d = .instr .ret ∧ ∃ top, s.stack = t.stack ++ [top]) ∨
    ∃ nnn, d = .instr (.call nnn) ∧ s.stack.length ≠ 16 ∧ t.stack = s.stack ++ [s.pc] := by
  cases h with
  | ret st top h => exact .inr (.inl ⟨rfl, top, h⟩)
  | call nnn h => exact .inr (.inr ⟨nnn, rfl, h, rfl⟩)
  | _ => exact .inl (by simp)

theorem effect_disp {s t : State} {d : Decoded} (h : Effect s d t) :
    t.disp = s.disp ∨ d = .instr .cls ∨ ∃ x y n, d = .instr (.drw x y n) := by
  cases h <;> simp

theorem effect_v_get {s t : State} {d : Decoded} (h : Effect s d t) (k : RegIdx) :
    t.v.get k = s.v.get k ∨
    (∃ kk, d = .instr (.ld k kk) ∨ d = .instr (.add k kk) ∨ d = .instr (.rnd k kk)) ∨
    (k = 0xF ∧ ∃ x y n, d = .instr (.drw x y n)) := by
  have hother : ∀ {x : RegIdx} (b : Byte), k ≠ x → (s.v.set x b).get k = s.v.get k := fun b hk => s.getV_setV_ne _ k b hk
  cases h with
  | ld x kk =>
    by_cases hk : k = x
    · exact .inr (.inl ⟨kk, .inl (by rw [hk])⟩)
    · exact .inl (hother kk hk)
  | add x kk =>
    by_cases hk : k = x
    · exact .inr (.inl ⟨kk, .inr (.inl (by rw [hk]))⟩)
    · exact .inl (hother _ hk)
  | rnd x kk =>
    by_cases hk : k = x
    · exact .inr (.inl ⟨kk, .inr (.inr (by rw [hk]))⟩)
    · exact .inl (hother _ hk)
  | drw x y n canvas =>
    by_cases hk : k = 0xF
    · exact .inr (.inr ⟨hk, x, y, n, rfl⟩)
    · exact .inl (hother _ hk)
  | _ => exact .inl (by simp)

/-- Settles O19: no effect writes Memory. -/
theorem noStepWritesMemory : Obligations.NoStepWritesMemory := by
  intro rand s t h
  obtain ⟨w, -, heffect⟩ := effect_of_stepWith h
  exact (effect_mem heffect).trans (advanced_mem s rand)

/-- Settles O20: an effect that changes `V[k]` is one of its writers'. -/
theorem onlyItsWritersChangeARegister : Obligations.OnlyItsWritersChangeARegister := by
  intro rand s t k h hchanged
  obtain ⟨w, hfetch, heffect⟩ := effect_of_stepWith h
  exact ⟨w, hfetch, (effect_v_get heffect k).resolve_left hchanged⟩

/-- Settles O21: an effect that changes the index register, the stack or the display is one of its writers'. -/
theorem onlyTheirWritersChangeIndexStackDisplay : Obligations.OnlyTheirWritersChangeIndexStackDisplay := by
  intro rand s t h
  obtain ⟨w, hfetch, heffect⟩ := effect_of_stepWith h
  refine ⟨fun hchanged => ?_, fun hchanged => ?_, fun hchanged => ?_,
    (effect_collisionC heffect).trans (advanced_collisionC s rand)⟩
  · obtain ⟨nnn, hdecode, -⟩ := (effect_i heffect).resolve_left hchanged
    exact ⟨w, nnn, hfetch, hdecode⟩
  · rcases (effect_stack heffect).resolve_left hchanged with ⟨hdecode, -⟩ | ⟨nnn, hdecode, -⟩
    · exact ⟨w, hfetch, .inl hdecode⟩
    · exact ⟨w, hfetch, .inr ⟨nnn, hdecode⟩⟩
  · exact ⟨w, hfetch, (effect_disp heffect).resolve_left hchanged⟩

/-! ## Events and `pc` -/

/-- Settles O15: `RET` on an empty stack and the unknown word report, no other effect touches the events. -/
theorem eventsOfEveryStep : Obligations.EventsOfEveryStep := by
  intro rand s t w hfetch h
  have heffect := effect_of_fetches hfetch h
  generalize decode w = d at heffect ⊢
  cases heffect with
  | retEmpty hempty =>
    rw [advanced_stack] at hempty
    simp [hempty]
  | ret st top hstack =>
    rw [advanced_stack] at hstack
    simp [hstack]
  | _ => simp

/-- Settles O16: the table's value of `pc`, effect by effect. -/
theorem pcAfterEveryStep : Obligations.PcAfterEveryStep := by
  intro rand s t w hfetch h
  have heffect := effect_of_fetches hfetch h
  have hskip : s.pc + 2#16 + 2#16 = s.pc + 4#16 := advanced_pc_add_two s rand
  generalize decode w = d at heffect ⊢
  cases heffect with
  | retEmpty hempty =>
    rw [advanced_stack] at hempty
    simp [pcAfter, hempty]
  | ret st top hstack =>
    rw [advanced_stack] at hstack
    simp [pcAfter, hstack]
  | se x kk => simp [pcAfter, State.getV, hskip]
  | sne x kk => simp [pcAfter, State.getV, hskip]
  | sneR x y =>
    by_cases heq : s.v.get x = s.v.get y
    · simp [pcAfter, State.getV, heq, params]
    · simp [pcAfter, State.getV, heq, hskip]
  | drw x y n canvas => exact hskip
  | _ => simp [pcAfter, zext16]

/-! ## The invariant -/

theorem pc_add_four_toNat {s : State} {w : Word} (hfetch : Fetches s w) : (s.pc + 4).toNat = s.pc.toNat + 4 := by
  have hvalid : s.pc.toNat + 1 < 4096 := hfetch.1
  rw [BitVec.toNat_add]
  exact Nat.mod_eq_of_lt (show s.pc.toNat + 4 < 65536 by omega)

theorem zext16_toNat_le (nnn : Addr12) : (nnn.setWidth 16).toNat ≤ 0xFFF := by
  rw [BitVec.toNat_setWidth_of_le (by decide)]
  exact addr_le nnn

/-- The farthest `pc` of the table of R25 is four past the last fetchable address. -/
theorem pcAfter_toNat_le {s : State} {w : Word} (hfetch : Fetches s w) (hentries : ∀ e ∈ s.stack, e.toNat ≤ 0x1000)
    (d : Decoded) : (pcAfter s d).toNat ≤ 0x1002 := by
  have hvalid : s.pc.toNat + 1 < 4096 := hfetch.1
  have htwo : (s.pc + 2).toNat ≤ 0x1002 := by rw [pc_add_two_toNat hfetch]; omega
  have hfour : (s.pc + 4).toNat ≤ 0x1002 := by rw [pc_add_four_toNat hfetch]; omega
  have haddr : ∀ nnn : Addr12, (nnn.setWidth 16).toNat ≤ 0x1002 := fun nnn => (zext16_toNat_le nnn).trans (by decide)
  cases d with
  | unknown w => exact htwo
  | instr i =>
    cases i with
    | ret =>
      rcases List.eq_nil_or_concat s.stack with hempty | ⟨st, top, hstack⟩
      · simpa [pcAfter, hempty] using htwo
      · have htop := hentries top (by simp [hstack])
        simp [pcAfter, hstack]
        omega
    | jp nnn => exact haddr nnn
    | call nnn => exact haddr nnn
    | se x kk => simp only [pcAfter]; split <;> assumption
    | sne x kk => simp only [pcAfter]; split <;> assumption
    | sneR x y => simp only [pcAfter]; split <;> assumption
    | drw x y n => exact hfour
    | _ => exact htwo

/-- A step reports at most one event. -/
theorem effect_events_length_le {s t : State} {d : Decoded} (h : Effect s d t) : t.events.length ≤ s.events.length + 1 := by
  cases h <;> simp

/-- A return address that a step leaves stood there before, or is the address after the fetched word (R120, R122). -/
theorem effect_stack_entry {s t : State} {d : Decoded} (h : Effect s d t) {e : Word} (he : e ∈ t.stack) :
    e ∈ s.stack ∨ e = s.pc := by
  rcases effect_stack h with hsame | ⟨-, top, hpop⟩ | ⟨-, -, -, hpush⟩
  · exact .inl (hsame ▸ he)
  · exact .inl (by simp [hpop, he])
  · simpa [hpush] using he

/-- A stack within the capacity stays within it (R27, R122). -/
theorem effect_stack_length_le {s t : State} {d : Decoded} (h : Effect s d t) (hdepth : s.stack.length ≤ 16) :
    t.stack.length ≤ 16 := by
  rcases effect_stack h with hsame | ⟨-, top, hpop⟩ | ⟨-, -, hne, hpush⟩
  · rwa [hsame]
  · rw [hpop, List.length_append] at hdepth
    omega
  · rw [hpush, List.length_append, List.length_singleton]
    omega

theorem effect_i_le {s t : State} {d : Decoded} (h : Effect s d t) (hindex : s.i.toNat ≤ 0xFFF) : t.i.toNat ≤ 0xFFF := by
  rcases effect_i h with hsame | ⟨nnn, -, hnnn⟩
  · rwa [hsame]
  · rw [hnnn]
    exact zext16_toNat_le nnn

theorem stepWith_keeps_inv {rand : Byte} {s t : State} (hinv : s.Inv) (h : stepWith rand s = .next t) : t.Inv := by
  obtain ⟨w, hfetch, heffect⟩ := effect_of_stepWith h
  have hvalid : s.pc.toNat + 1 < 4096 := hfetch.1
  have hentries : ∀ e ∈ s.stack, e.toNat ≤ 0x1000 := fun e he => (hinv.entries e he).2
  have hmem : t.mem = s.mem := noStepWritesMemory rand s t h
  have hpc : t.pc = pcAfter s (decode w) := pcAfterEveryStep rand s t w hfetch h
  have hC : t.collisionC = s.collisionC := (effect_collisionC heffect).trans (advanced_collisionC s rand)
  refine ⟨?_, effect_i_le heffect hinv.index_le, ?_, effect_stack_length_le heffect hinv.depth_le, fun e he => ?_,
    effect_events_length_le heffect, ?_⟩
  · rw [hmem]
    exact hinv.mem_wf
  · rw [hpc]
    exact pcAfter_toNat_le hfetch hentries _
  · rcases effect_stack_entry heffect he with hold | hpushed
    · exact hinv.entries e hold
    · rw [hpushed, advanced_pc, pc_add_two_toNat hfetch]
      omega
  · rw [hC]
    exact hinv.collisionC_reset

/-- Settles O17: each field of the invariant from what an effect can do to it; `step` is `STEP(rand)` with some byte. -/
theorem everyStepKeepsInvariant : Obligations.EveryStepKeepsInvariant := by
  rintro rand s t hinv (h | h)
  · exact stepWith_keeps_inv hinv h
  · exact stepWith_keeps_inv hinv ((step_eq_stepWith s).symm.trans h)

/-- Settles O18: no cells, no index, an empty stack, no events. -/
theorem resetHasInvariant : Obligations.ResetHasInvariant where
  mem_wf := Memory.wf_nil
  index_le := by decide
  pc_le := by decide
  depth_le := by decide
  entries := fun _ he => absurd he List.not_mem_nil
  events_le := by decide
  collisionC_reset := rfl

end Sys2Proof.Proofs
end

section
/-! PROOFS. `JP`, `CALL`, `RET` after `CALL`, `SNE_R` and `RND` (41_control_flow.md R121, R122, R125; 42_register_ops.md R143), and the
self-jump (70_reset_and_hazards.md R238). -/

namespace Sys2Proof.Proofs

open Sys2Proof.Machine Sys2Proof.Statements

/-! ## `JP` -/

theorem exec_jp (nnn : Addr12) (s : State) : exec (.jp nnn) s = .next { s with pc := nnn.setWidth 16 } := rfl

/-- Settles O23: `pc` alone is written. -/
theorem jpSetsPc : Obligations.JpSetsPc := fun nnn => ⟨exec_jp nnn, stepDoes_of_exec (decode_jp nnn) (exec_jp nnn)⟩

/-! ## `CALL` -/

theorem callWith_of_stackFull {p : Params} {s : State} (h : stackFull p s = true) (nnn : Addr12) :
    callWith p nnn s = .fault (.stackOverflow (s.pc - 2) nnn) := if_pos h

theorem callWith_of_not_stackFull {p : Params} {s : State} (h : stackFull p s ≠ true) (nnn : Addr12) :
    callWith p nnn s = .next { s with stack := s.stack ++ [s.pc], pc := nnn.setWidth 16 } := if_neg h

theorem not_stackFull_of_below {p : Params} {s : State}
    (h : ∀ capacity, p.stackCapacity = some capacity → s.stack.length < capacity) : stackFull p s ≠ true := by
  cases hp : p.stackCapacity with
  | none => simp [stackFull_unbounded p s hp]
  | some capacity =>
    rw [Ne, stackFull_bounded p s hp]
    exact Nat.ne_of_lt (h capacity hp)

/-- Settles O29: the stack is full exactly where its depth is the capacity. -/
theorem callUnderAnyCapacity : Obligations.CallUnderAnyCapacity := fun p nnn s =>
  ⟨fun hbelow => callWith_of_not_stackFull (not_stackFull_of_below hbelow) nnn,
    fun hfull => callWith_of_stackFull ((stackFull_bounded p s hfull).2 rfl) nnn⟩

theorem exec_call_below {s : State} (h : s.stack.length < 16) (nnn : Addr12) :
    exec (.call nnn) s = .next { s with stack := s.stack ++ [s.pc], pc := nnn.setWidth 16 } :=
  callWith_of_not_stackFull (mt (stackFull_params s).1 (Nat.ne_of_lt h)) nnn

theorem exec_call_full {s : State} (h : s.stack.length = 16) (nnn : Addr12) :
    exec (.call nnn) s = .fault (.stackOverflow (s.pc - 2) nnn) :=
  callWith_of_stackFull ((stackFull_params s).2 h) nnn

/-- Settles O24: the two answers of `CALL`, after the fetch advance as before it. -/
theorem callPushesOrOverflows : Obligations.CallPushesOrOverflows := by
  refine fun nnn s => ⟨fun h => exec_call_below h nnn, fun h => exec_call_full h nnn, fun rand hfetch => ?_⟩
  rw [stepWith_of_fetches_instr rand hfetch (decode_call nnn)]
  have hfetchAddr : (advanced s rand).pc - 2 = s.pc := fetchAddr_advanced s rand
  refine ⟨fun h => exec_call_below (s := advanced s rand) h nnn, fun h => ?_⟩
  rw [exec_call_full (s := advanced s rand) h, hfetchAddr]

theorem stack_of_exec_call {nnn : Addr12} {s t : State} (h : exec (.call nnn) s = .next t) :
    t.stack = s.stack ++ [s.pc] := by
  rcases execCall_cases nnn s with ⟨-, hfull⟩ | ⟨-, hpush⟩
  · cases hfull.symm.trans h
  · cases hpush.symm.trans h
    rfl

/-- Settles O25: the top of the stack that a `CALL` left is the address after it, and below it stands the stack of before. -/
theorem retUndoesCall : Obligations.RetUndoesCall := by
  intro nnn s t u hcall hstack
  exact exec_ret_concat (hstack.trans (stack_of_exec_call hcall))

/-! ## `SNE_R` -/

theorem sneRWith_eq (p : Params) (x y : RegIdx) (s : State) : sneRWith p x y s =
    .next { s with pc := if s.v.get x ≠ s.v.get y then s.pc + 2 else s.pc + p.sneREqExtra } := by
  have hpc : s.pc + (if s.v.get x ≠ s.v.get y then 2 else p.sneREqExtra) =
      if s.v.get x ≠ s.v.get y then s.pc + 2 else s.pc + p.sneREqExtra := apply_ite (s.pc + ·) _ _ _
  rw [← hpc]
  rfl

theorem exec_sneR (x y : RegIdx) (s : State) :
    exec (.sneR x y) s = .next { s with pc := if s.v.get x ≠ s.v.get y then s.pc + 2 else s.pc } := by
  have hzero : s.pc + params.sneREqExtra = s.pc := BitVec.add_zero s.pc
  exact (sneRWith_eq params x y s).trans (by rw [hzero])

/-- Settles O28: the skip of two where the registers differ; the spec's value of the parameter adds nothing. -/
theorem sneRSkipsWhenUnequal : Obligations.SneRSkipsWhenUnequal := by
  refine fun x y => ⟨exec_sneR x y, fun s rand hfetch => ?_, fun p s => sneRWith_eq p x y s⟩
  rw [stepWith_of_fetches_instr rand hfetch (decode_sneR x y), exec_sneR, advanced_pc_add_two]
  rfl

/-! ## `RND` -/

theorem exec_rnd (x : RegIdx) (kk : Byte) (s : State) :
    exec (.rnd x kk) s = .next { s with v := s.v.set x (s.rand &&& kk) } := rfl

/-- Settles O34: the mask is applied to the step's byte, and masking is idempotent and lowers the number. -/
theorem rndMasksTheRandomByte : Obligations.RndMasksTheRandomByte := by
  refine fun x kk => ⟨exec_rnd x kk, fun s rand hfetch => ?_, fun rand => ⟨?_, ?_⟩⟩
  · rw [stepWith_of_fetches_instr rand hfetch (decode_rnd x kk), exec_rnd]
    rfl
  · rw [BitVec.and_assoc, BitVec.and_self]
  · rw [BitVec.toNat_and]
    exact Nat.and_le_right

/-! ## The self-jump -/

theorem run_of_atSelfJump {s : State} (h : s.atSelfJump = true) (rands : List Byte) : run rands s = .selfJump s := by
  cases rands with
  | nil => exact if_pos h
  | cons rand rands => exact if_pos h

theorem atSelfJump_of_fetches {s : State} (h : Fetches s (0x1000 ||| s.pc)) : s.atSelfJump = true := by
  rw [State.atSelfJump, fetchWord_of_fetches h]
  exact beq_self_eq_true _

/-- Settles O30: the jump writes the `pc` that stands there, and a run looks for the word before it steps. -/
theorem selfJumpChangesNothing : Obligations.SelfJumpChangesNothing := by
  intro s nnn hpc hfetch
  refine ⟨fun rand => ?_, run_of_atSelfJump (atSelfJump_of_fetches (hpc ▸ hfetch))⟩
  have hstep : stepWith rand s = .next { advanced s rand with pc := nnn.setWidth 16 } := (jpSetsPc nnn).2 s rand hfetch
  exact ⟨_, hstep, ⟨rfl, rfl, rfl, hpc.symm, rfl, rfl, rfl⟩, rfl⟩

end Sys2Proof.Proofs
end

section
/-! PROOFS. `DRW` (43_display.md R161 to R167): sprites outside Memory, the alternative parameters, and drawing twice. -/

namespace Sys2Proof.Proofs

open Sys2Proof.Machine Sys2Proof.Statements

/-! ## Under the spec's parameters -/

/-- A draw writes the display, `VF` and `pc`. -/
theorem drawn_eq (x y : RegIdx) (n : Nibble) (s : State) : drawn x y n s =
    { s with disp := (drawn x y n s).disp, v := s.v.set 0xF ((drawn x y n s).v.get 0xF), pc := s.pc + 2 } := by
  rw [flag_drawn]
  rfl

/-- Settles O36: the drawn state is the composited one, with the collision in `VF`. -/
theorem drwCompositesAndDetectsCollision : Obligations.DrwCompositesAndDetectsCollision := fun x y n s h =>
  ⟨drawn x y n s, exec_drw_of_rowsInMemory x y h, composited_drawn x y n s, flag_drawn_of_collision,
    flag_drawn_of_not_collision, drawn_eq x y n s⟩

/-! ## A row outside Memory -/

/-- Settles O37: the least row outside Memory is the first one, or the one at 4096. -/
theorem drwOutsideMemoryFaults : Obligations.DrwOutsideMemoryFaults := by
  intro p x y n s h
  obtain ⟨r, hr, hbad, hleast⟩ := (drw_rows_cases s.i.toNat n.toNat).resolve_left h
  have hedge : s.i.toNat + r = 4096 ∨ r = 0 := by
    rcases Nat.eq_zero_or_pos r with hzero | hpos
    · exact .inr hzero
    · have hbelow := hleast (r - 1) (by omega)
      rw [valid_iff] at hbad hbelow
      omega
  refine ⟨s.i.toNat + r, Nat.not_lt.1 hbad, Nat.le_add_right _ _, Nat.add_lt_add_left hr _, ?_,
    drwWith_invalid params x y n s r hr hbad hleast, drwWith_invalid p x y n s r hr hbad hleast⟩
  exact hedge.imp_right fun hzero => by rw [hzero, Nat.add_zero]

/-! ## Under the alternative parameters -/

/-- Settles O39: the same canvas as with the flag in `VF`, with the collision in `C`. -/
theorem drwSeparateFlagLeavesRegisters : Obligations.DrwSeparateFlagLeavesRegisters := fun x y n s h =>
  ⟨{ s with disp := (drawnCanvas x y n s).1, collisionC := (drawnCanvas x y n s).2, pc := s.pc + 2 },
    drwWith_valid { params with collisionStorage := .separate } x y n s h, composited_drawn x y n s,
    drawnCanvas_collision_iff x y n s, rfl⟩

/-- The canvas of a draw under any `DRAW_EDGE` (R161). -/
def canvasUnder (edge : DrawEdge) (x y : RegIdx) (n : Nibble) (s : State) : Canvas :=
  drawRows edge (s.getV x).toNat (s.getV y).toNat (spriteRows n s) (s.disp, false)

section
variable {edge : DrawEdge} {T : Nat → Nat → Fin 64 → Fin 32 → Prop} (x y : RegIdx) (n : Nibble) (s : State)
  (hT : ∀ cx cy px py, target edge cx cy = some (px, py) ↔ T cx cy px py)
include hT

/-- A draw composites the sprite with the target rule of its edge parameter (R163, R164). -/
theorem composited_of_disp_eq {t : State} (ht : t.disp = (canvasUnder edge x y n s).1) : Composited T x y n s t := by
  have hpixel : ∀ px py, pixel t px py = Display.pix (canvasUnder edge x y n s).1 px py := fun px py => by rw [← ht]; rfl
  constructor
  · intro r b hr hb px py hon
    have hr' : r < (spriteRows n s).length := by rwa [spriteRows_length]
    have hhit := drawRows_pix_hit edge _ _ _ (s.disp, false) (spriteRows_length_le n s) hr' hb ((hT ..).2 hon)
    exact (hpixel px py).trans (hhit.trans (congrArg _ (spriteBit_spriteRows b hr')))
  · intro px py hoff
    refine (hpixel px py).trans (drawRows_pix_miss edge _ _ _ (s.disp, false) fun r b hr hb htarget => ?_)
    exact hoff r b (by rwa [spriteRows_length] at hr) hb ((hT ..).1 htarget)

/-- The collision of a draw is the one of its edge parameter's target rule (R164). -/
theorem canvasUnder_collision_iff : (canvasUnder edge x y n s).2 = true ↔ Collision T x y n s := by
  refine (drawRows_collision edge _ _ _ (s.disp, false) (spriteRows_length_le n s)).trans ?_
  constructor
  · rintro (hinit | ⟨r, b, hr, hb, px, py, htarget, hpix, hbit⟩)
    · cases hinit
    · exact ⟨r, b, by rwa [spriteRows_length] at hr, hb, px, py, (hT ..).1 htarget, hpix,
        (spriteBit_spriteRows b hr).symm.trans hbit⟩
  · rintro ⟨r, b, hr, hb, px, py, hon, hpix, hbit⟩
    have hr' : r < (spriteRows n s).length := by rwa [spriteRows_length]
    exact .inr ⟨r, b, hr', hb, px, py, (hT ..).2 hon, hpix, (spriteBit_spriteRows b hr').trans hbit⟩

end

theorem target_clip_iff_clipTarget (cx cy : Nat) (px : Fin 64) (py : Fin 32) :
    target .clip cx cy = some (px, py) ↔ clipTarget cx cy px py :=
  (target_clip ..).trans (and_congr eq_comm eq_comm)

/-- The state after a draw under `DRAW_EDGE = clip`, with the flag in `VF`. -/
def clippedDrawn (x y : RegIdx) (n : Nibble) (s : State) : State :=
  { s with
    disp := (canvasUnder .clip x y n s).1
    v := s.v.set 0xF (collisionByte (canvasUnder .clip x y n s).2)
    pc := s.pc + 2 }

theorem drwWith_clip {x y : RegIdx} {n : Nibble} {s : State} (h : RowsInMemory n s) :
    drwWith { params with drawEdge := .clip } x y n s = .next (clippedDrawn x y n s) :=
  drwWith_valid { params with drawEdge := .clip } x y n s h

theorem flag_clippedDrawn (x y : RegIdx) (n : Nibble) (s : State) :
    (clippedDrawn x y n s).v.get 0xF = collisionByte (canvasUnder .clip x y n s).2 := s.getV_setV_same 0xF _

/-- Settles O38: as a draw that wraps, with the target rule of `clip`. -/
theorem drwClipDropsBitsOutside : Obligations.DrwClipDropsBitsOutside := by
  intro x y n s h
  have hcollision := canvasUnder_collision_iff x y n s target_clip_iff_clipTarget
  refine ⟨clippedDrawn x y n s, drwWith_clip h, composited_of_disp_eq x y n s target_clip_iff_clipTarget rfl,
    fun hc => ?_, fun hc => ?_, ?_⟩
  · rw [flag_clippedDrawn, hcollision.2 hc]
    rfl
  · rw [flag_clippedDrawn, Bool.eq_false_of_not_eq_true (mt hcollision.1 hc)]
    rfl
  · rw [flag_clippedDrawn]
    rfl

/-! ## Drawing twice -/

/-- A draw that succeeds had its rows in Memory, and left the drawn state. -/
theorem drawn_of_exec_drw {x y : RegIdx} {n : Nibble} {s t : State} (h : exec (.drw x y n) s = .next t) :
    RowsInMemory n s ∧ t = drawn x y n s := by
  rcases drw_rows_cases s.i.toNat n.toNat with hrows | ⟨r, hr, hbad, hleast⟩
  · cases (exec_drw_of_rowsInMemory x y hrows).symm.trans h
    exact ⟨hrows, rfl⟩
  · cases (drwWith_invalid params x y n s r hr hbad hleast).symm.trans h

/-- A draw leaves the coordinates of the same draw where they are not in `VF`: every bit falls on the same pixel again. -/
theorem fallsOn_drawn_iff {x y : RegIdx} (hx : x ≠ 0xF) (hy : y ≠ 0xF) (T : Nat → Nat → Fin 64 → Fin 32 → Prop) (n : Nibble)
    (s : State) (r b : Nat) (px : Fin 64) (py : Fin 32) :
    FallsOn T x y (drawn x y n s) r b px py ↔ FallsOn T x y s r b px py := by
  have hcolumn : (drawn x y n s).v.get x = s.v.get x := s.getV_setV_ne 0xF x _ hx
  have hrow : (drawn x y n s).v.get y = s.v.get y := s.getV_setV_ne 0xF y _ hy
  rw [FallsOn, FallsOn, hcolumn, hrow]

theorem spriteBitAt_drawn (x y : RegIdx) (n : Nibble) (s : State) (r b : Nat) :
    spriteBitAt (drawn x y n s) r b = spriteBitAt s r b := rfl

/-- XOR with the same bit twice is nothing (R164). -/
theorem disp_drawn_drawn {x y : RegIdx} (hx : x ≠ 0xF) (hy : y ≠ 0xF) (n : Nibble) (s : State) :
    (drawn x y n (drawn x y n s)).disp = s.disp := by
  obtain ⟨hhit, hmiss⟩ := composited_drawn x y n s
  obtain ⟨hhit', hmiss'⟩ := composited_drawn x y n (drawn x y n s)
  simp only [fallsOn_drawn_iff hx hy, spriteBitAt_drawn] at hhit' hmiss'
  refine Display.ext_pix _ _ fun px py => show pixel _ px py = pixel s px py from ?_
  by_cases hon : ∃ r b, r < n.toNat ∧ b < 8 ∧ FallsOn wrapTarget x y s r b px py
  · obtain ⟨r, b, hr, hb, hon⟩ := hon
    rw [hhit' r b hr hb px py hon, hhit r b hr hb px py hon, Bool.xor_assoc, Bool.xor_self, Bool.xor_false]
  · have hoff : ∀ r b, r < n.toNat → b < 8 → ¬ FallsOn wrapTarget x y s r b px py :=
      fun r b hr hb h => hon ⟨r, b, hr, hb, h⟩
    rw [hmiss' px py hoff, hmiss px py hoff]

/-- Under `wrap` every bit falls on a pixel (R163). -/
theorem exists_fallsOn_wrap (x y : RegIdx) (s : State) (r b : Nat) : ∃ px py, FallsOn wrapTarget x y s r b px py :=
  ⟨⟨_, Nat.mod_lt _ (by decide)⟩, ⟨_, Nat.mod_lt _ (by decide)⟩, rfl, rfl⟩

/-- A set bit that met no set pixel has set its own, which the same bit meets again (R167). -/
theorem collision_drawn {x y : RegIdx} (hx : x ≠ 0xF) (hy : y ≠ 0xF) {n : Nibble} {s : State}
    (hno : ¬ Collision wrapTarget x y n s) {r b : Nat} (hr : r < n.toNat) (hb : b < 8) (hbit : spriteBitAt s r b = true) :
    Collision wrapTarget x y n (drawn x y n s) := by
  obtain ⟨px, py, hon⟩ := exists_fallsOn_wrap x y s r b
  have hunset : pixel s px py = false :=
    Bool.eq_false_of_not_eq_true fun hset => hno ⟨r, b, hr, hb, px, py, hon, hset, hbit⟩
  have hset : pixel (drawn x y n s) px py = true := by
    rw [(composited_drawn x y n s).1 r b hr hb px py hon, hunset, hbit, Bool.false_xor]
  exact ⟨r, b, hr, hb, px, py, (fallsOn_drawn_iff hx hy ..).2 hon, hset, hbit⟩

/-- Settles O40: the second draw flips the same pixels back, and meets what the first one set. -/
theorem drawingTwiceRestoresTheDisplay : Obligations.DrawingTwiceRestoresTheDisplay := by
  intro x y n s t hx hy h
  obtain ⟨hrows, rfl⟩ := drawn_of_exec_drw h
  refine ⟨drawn x y n (drawn x y n s), exec_drw_of_rowsInMemory x y hrows, disp_drawn_drawn hx hy n s, ?_⟩
  rintro hflag ⟨r, b, hr, hb, hbit⟩
  have hno : ¬ Collision wrapTarget x y n s := fun hc =>
    absurd ((flag_drawn_of_collision hc).symm.trans hflag) (by decide)
  exact flag_drawn_of_collision (collision_drawn hx hy hno hr hb hbit)

end Sys2Proof.Proofs
end

section
/-! PROOFS. Memory and its ports (20_memory.md R50 to R64, 10_state.md R35). -/

namespace Sys2Proof.Proofs

open Sys2Proof.Machine Sys2Proof.Statements

/-! ## `LOAD` -/

theorem loadPort_valid (s : State) {addr : Nat} (b : Byte) (h : addr < 4096) :
    loadPort addr b s = ({ s with mem := s.mem.store addr b }, .loaded) := by
  rw [loadPort, s.memWrite_valid b h]

theorem loadPort_invalid (s : State) {addr : Nat} (b : Byte) (h : 4096 ≤ addr) :
    loadPort addr b s = (s, .loadRejected) := by
  rw [loadPort, s.memWrite_invalid b (Nat.not_lt.2 h)]

/-- Settles O44: a store into canonical memory is canonical and changes the reading of one address. -/
theorem loadWritesOneByteOrIsRejected : Obligations.LoadWritesOneByteOrIsRejected := fun s _ b hwf =>
  ⟨fun h => ⟨_, loadPort_valid s b h, Memory.wf_store hwf h, fun _ => Memory.byteAt_store hwf⟩,
    loadPort_invalid s b⟩

/-! ## A loaded word -/

/-- The state with a word's two bytes stored at `pc` and `pc + 1` (R54). -/
def loadedAtPc (s : State) (w : Word) : State :=
  { s with mem := (s.mem.store s.pc.toNat (highByte w)).store (s.pc.toNat + 1) (lowByte w) }

theorem fetches_loadedAtPc {s : State} (w : Word) (hwf : Memory.wf s.mem = true) (hpc : s.pc.toNat + 1 < 4096) :
    Fetches (loadedAtPc s w) w := by
  have hwf' : Memory.wf (s.mem.store s.pc.toNat (highByte w)) = true :=
    Memory.wf_store hwf (Nat.lt_of_succ_lt hpc)
  have hhigh : (loadedAtPc s w).mem.byteAt s.pc.toNat = highByte w := by
    rw [loadedAtPc, Memory.byteAt_store hwf', if_neg (by omega), Memory.byteAt_store hwf, if_pos rfl]
  have hlow : (loadedAtPc s w).mem.byteAt (s.pc.toNat + 1) = lowByte w := by
    rw [loadedAtPc, Memory.byteAt_store hwf', if_pos rfl]
  refine ⟨hpc, ?_⟩
  calc ((loadedAtPc s w).mem.byteAt s.pc.toNat).toNat * 256 + ((loadedAtPc s w).mem.byteAt (s.pc.toNat + 1)).toNat
      = (wordOfBytes (highByte w) (lowByte w)).toNat := by rw [hhigh, hlow, wordOfBytes_toNat]
    _ = w.toNat := by rw [wordOfBytes_high_low]

theorem transactAll_loads (s : State) (w : Word) (hpc : s.pc.toNat + 1 < 4096) :
    (transactAll [.load s.pc.toNat (highByte w), .load (s.pc.toNat + 1) (lowByte w)] s).1 = loadedAtPc s w := by
  simp [transactAll, transact, loadPort_valid _ _ hpc, loadPort_valid _ _ (Nat.lt_of_succ_lt hpc), loadedAtPc]

theorem storeAtPc_eq (s : State) (w : Word) (hpc : s.pc.toNat + 1 < 4096) : s.storeAtPc w = loadedAtPc s w := by
  simp [State.storeAtPc, State.memWrite_valid _ _ hpc, State.memWrite_valid _ _ (Nat.lt_of_succ_lt hpc), loadedAtPc]

theorem tableWord_toNat (w : Word) : tableWord 16 w.toNat = w := by
  rw [tableWord, Nat.mod_eq_of_lt w.isLt, BitVec.ofNat_toNat, BitVec.setWidth_eq]

/-- Settles O45: both ways of loading store the word's two bytes where the fetch reads them. -/
theorem loadedWordIsFetched : Obligations.LoadedWordIsFetched := by
  intro s w hwf hpc
  rw [transactAll_loads s w hpc, State.withFetchWord, tableWord_toNat, storeAtPc_eq s w hpc]
  exact ⟨fetches_loadedAtPc w hwf hpc, fetches_loadedAtPc w hwf hpc⟩

/-! ## The canonical form determines the data -/

theorem byteAt_cons_same (a : Nat) (b : Byte) (m : Memory) : Memory.byteAt ((a, b) :: m) a = b := if_pos rfl

theorem byteAt_cons_ne {a a' : Nat} (b : Byte) (m : Memory) (h : a ≠ a') :
    Memory.byteAt ((a, b) :: m) a' = Memory.byteAt m a' := if_neg h

/-- A canonical memory with a cell reads there what no unlisted address reads. -/
theorem byteAt_first_ne_reset {lo a : Nat} {b : Byte} {m : Memory} (h : Memory.wfFrom lo ((a, b) :: m) = true) :
    Memory.byteAt ((a, b) :: m) a ≠ Config.memReset := by
  obtain ⟨-, -, hb, -⟩ := (Memory.wfFrom_cons_iff ..).1 h
  rwa [byteAt_cons_same]

/-- The first cell of a canonical memory stands at no higher address than any memory that reads the same starts at. -/
theorem first_cell_le {lo a lo' : Nat} {b : Byte} {m m' : Memory} (h : Memory.wfFrom lo ((a, b) :: m) = true)
    (h' : Memory.wfFrom lo' m' = true) (hread : Memory.byteAt ((a, b) :: m) a = Memory.byteAt m' a) : lo' ≤ a := by
  by_contra hlt
  exact byteAt_first_ne_reset h (hread.trans (Memory.byteAt_below h' (Nat.lt_of_not_le hlt)))

theorem eq_of_byteAt_eq {m m' : Memory} {lo lo' : Nat} (h : Memory.wfFrom lo m = true) (h' : Memory.wfFrom lo' m' = true)
    (hread : ∀ a, Memory.byteAt m a = Memory.byteAt m' a) : m = m' := by
  induction m generalizing m' lo lo' with
  | nil =>
    cases m' with
    | nil => rfl
    | cons c' m' => exact absurd (hread c'.1).symm (byteAt_first_ne_reset h')
  | cons c m ih =>
    cases m' with
    | nil => exact absurd (hread c.1) (byteAt_first_ne_reset h)
    | cons c' m' =>
      obtain ⟨a, b⟩ := c
      obtain ⟨a', b'⟩ := c'
      obtain ⟨-, hvalid, hb, htail⟩ := (Memory.wfFrom_cons_iff ..).1 h
      obtain ⟨-, hvalid', hb', htail'⟩ := (Memory.wfFrom_cons_iff ..).1 h'
      have hle : a' ≤ a := first_cell_le h ((Memory.wfFrom_cons_iff ..).2 ⟨le_rfl, hvalid', hb', htail'⟩) (hread a)
      have hge : a ≤ a' := first_cell_le h' ((Memory.wfFrom_cons_iff ..).2 ⟨le_rfl, hvalid, hb, htail⟩) (hread a').symm
      obtain rfl : a = a' := Nat.le_antisymm hge hle
      have hbyte : b = b' := by simpa only [byteAt_cons_same] using hread a
      have hrest : ∀ x, Memory.byteAt m x = Memory.byteAt m' x := by
        intro x
        by_cases hx : a = x
        · rw [← hx, Memory.byteAt_below htail (Nat.lt_succ_self a), Memory.byteAt_below htail' (Nat.lt_succ_self a)]
        · simpa only [byteAt_cons_ne _ _ hx] using hread x
      rw [hbyte, ih htail htail' hrest]

/-- Settles O46: the first cells stand at the same address with the same byte, and the cells after them read the same. -/
theorem canonicalMemoriesThatReadTheSameAreEqual : Obligations.CanonicalMemoriesThatReadTheSameAreEqual := fun _ _ =>
  eq_of_byteAt_eq

/-! ## The read ports -/

theorem readStatePort_valid (s : State) {addr : Nat} (h : addr < 4096) :
    readStatePort addr s = (s, .view ⟨s.v, s.i, s.pc, s.stack, s.mem.byteAt addr⟩) := by
  rw [readStatePort, State.view, if_pos h]

theorem readStatePort_invalid (s : State) {addr : Nat} (h : 4096 ≤ addr) :
    readStatePort addr s = (s, .readRejected) := by
  rw [readStatePort, State.view, if_neg (Nat.not_lt.2 h)]

/-- Settles O47: each port answers a view of the state and the state itself. -/
theorem readPortsOnlyRead : Obligations.ReadPortsOnlyRead := fun s _ =>
  ⟨rfl, readStatePort_valid s, readStatePort_invalid s⟩

end Sys2Proof.Proofs
end

section
/-! PROOFS. Runs (70_reset_and_hazards.md R233, R238). -/

namespace Sys2Proof.Proofs

open Sys2Proof.Machine Sys2Proof.Statements

/-! ## Where a run ends with a fault -/

/-- A run that ends with a fault ends at a state that is no self-jump, with the fault of a step from it. -/
theorem stepWith_of_run_faulted {rands : List Byte} {s t : State} {f : Fault} (h : run rands s = .faulted t f) :
    t.atSelfJump = false ∧ ∃ rand, stepWith rand t = .fault f := by
  induction rands generalizing s with
  | nil =>
    rw [run] at h
    split at h <;> cases h
  | cons rand rands ih =>
    rw [run] at h
    split at h
    · cases h
    · next hjump =>
      split at h
      · exact ih h
      · next f' hstep =>
        cases h
        exact ⟨Bool.eq_false_of_not_eq_true hjump, rand, hstep⟩
      · cases h

/-- Settles O49: the run's last step faulted, and a fault does not depend on the random byte. -/
theorem faultedRunEndsWhereEveryStepFaults : Obligations.FaultedRunEndsWhereEveryStepFaults := by
  intro rands s t f h
  obtain ⟨hjump, rand, hstep⟩ := stepWith_of_run_faulted h
  exact ⟨hjump, stepWith_fault_any_rand hstep⟩

/-! ## The machine with nothing loaded -/

theorem stepN_succ_of_next {s t : State} (h : step s = .next t) (k : Nat) : stepN (k + 1) s = stepN k t := by
  rw [stepN, h]

theorem stepN_one (s : State) : stepN 1 s = step s := by
  cases h : step s with
  | next t => exact stepN_succ_of_next h 0
  | fault f => rw [stepN, h]
  | refused r => rw [stepN, h]

/-- One step more is a step at the end. -/
theorem stepN_succ {k : Nat} {s t : State} (h : stepN k s = .next t) : stepN (k + 1) s = step t := by
  induction k generalizing s with
  | zero =>
    cases h
    exact stepN_one t
  | succ k ih =>
    rw [stepN] at h
    split at h
    · next s' hstep => exact (stepN_succ_of_next hstep (k + 1)).trans (ih h)
    · cases h
    · cases h

/-- Where no byte is loaded, 0x0000 stands everywhere in Memory. -/
theorem fetches_zero_of_mem_nil {s : State} (hmem : s.mem = []) (hpc : s.pc.toNat + 1 < 4096) : Fetches s 0x0000 := by
  refine ⟨hpc, ?_⟩
  rw [hmem, Memory.byteAt_nil, Memory.byteAt_nil]
  rfl

/-- A step with nothing loaded moves `pc` by two and reports 0x0000 (R76, R233). -/
theorem step_of_mem_nil {s : State} (hmem : s.mem = []) (hpc : s.pc.toNat + 1 < 4096) :
    step s = .next { advanced s (Config.randByte s.tick) with events := [.unknownOpcode 0x0000 s.pc] } :=
  unknownOpcodeOnlyAdvances.1 0x0000 decode_zero s _ (fetches_zero_of_mem_nil hmem hpc)

/-- The state after `k` steps from construction, with nothing loaded. -/
structure AfterUnknowns (k : Nat) (s : State) : Prop where
  pc : s.pc.toNat = 0x200 + 2 * k
  same : State.SameArch { State.reset with pc := s.pc } s
  events : k ≠ 0 → s.events = [.unknownOpcode 0x0000 (s.pc - 2)]

theorem afterUnknowns_step {k : Nat} {s : State} (h : AfterUnknowns k s) (hk : k < 1792) :
    ∃ t, step s = .next t ∧ AfterUnknowns (k + 1) t := by
  obtain ⟨hmem, hv, hi, -, hstack, hdisp, hC⟩ := h.same
  have hvalid : s.pc.toNat + 1 < 4096 := by rw [h.pc]; omega
  have hpc := pc_add_two_toNat (fetches_zero_of_mem_nil hmem hvalid)
  refine ⟨_, step_of_mem_nil hmem hvalid, ?_, ⟨hmem, hv, hi, rfl, hstack, hdisp, hC⟩, fun _ => ?_⟩
  · exact hpc.trans (by rw [h.pc]; omega)
  · exact congrArg (fun A => [Event.unknownOpcode 0x0000 A]) (fetchAddr_advanced s 0).symm

theorem stepN_reset (k : Nat) (hk : k ≤ 1792) : ∃ s, stepN k State.reset = .next s ∧ AfterUnknowns k s := by
  induction k with
  | zero => exact ⟨State.reset, rfl, rfl, ⟨rfl, rfl, rfl, rfl, rfl, rfl, rfl⟩, fun h => absurd rfl h⟩
  | succ k ih =>
    obtain ⟨s, hrun, hs⟩ := ih (by omega)
    obtain ⟨t, hstep, ht⟩ := afterUnknowns_step hs (by omega)
    exact ⟨t, (stepN_succ hrun).trans hstep, ht⟩

/-- Settles O43: each step meets 0x0000 until `pc` is 0x1000, where the fetch faults. -/
theorem unloadedMachineRunsOffTheTop : Obligations.UnloadedMachineRunsOffTheTop := by
  constructor
  · intro k hk
    obtain ⟨s, hrun, hs⟩ := stepN_reset k hk
    exact ⟨s, hrun, hs.pc, hs.same, hs.events⟩
  · obtain ⟨s, hrun, hs⟩ := stepN_reset 1792 le_rfl
    have hend : s.pc = 0x1000 := BitVec.eq_of_toNat_eq hs.pc
    exact (stepN_succ hrun).trans (stepWith_at_memory_end _ hend)

end Sys2Proof.Proofs
end
